-- ==== Sys2Proof/Word.lean ====
section
/-!
DEFINITION. The word types of RSU-CORE (spec/00_scope.md R7, R9; spec/30_encoding.md R60, R67).
Every value is unsigned and bit 0 is the least significant bit (R9).
-/

namespace Sys2Proof

/-- `u64`: the width of `State`, of an operand and of a response's data (R7 parameter `W`, R9). -/
abbrev Word := BitVec 64

/-- `u4`: an index into `SBOX` and an entry of it (R9, R40). -/
abbrev Nibble := BitVec 4

/-- `bit` is the set of 0 and 1 (R9); `true` is 1. -/
abbrev Bit := Bool

/-- A command word `CMD[67:0]` (R60). -/
abbrev CmdWord := BitVec 68

/-- A response word `RSP[66:0]` (R67). -/
abbrev RspWord := BitVec 67

end Sys2Proof
end

