-- ==== Sys2Proof/Config.lean ====
section
/-!
DEFINITION. The open parameters of RSU-CORE (spec/00_scope.md R7, spec/92_eei_decisions.md "Open parameters, in one
place"). They are not state (spec/10_state.md R35). Definitions that depend on them take a `Params`, so that a claim can be
made for every value; the machine itself runs at `Config.params`, whose two parts have no body: no proof can see what they
are (log entries 5 and 6).
-/

namespace Sys2Proof

/-- `SBOX`, 16 entries of 4 bits, a bijection of 0 .. 15 (spec/10_state.md R29). The type holds the constraint: there is no
table that is not a permutation. -/
abbrev SBox := Equiv.Perm Nibble

/-- `BUDGET_MULT`: a natural number at least 2, or no bound (spec/00_scope.md R7, spec/43_keygenerator.md R123). -/
inductive BudgetMult where
  /-- The spec's `∞`: "the literal original behavior". -/
  | unbounded
  /-- A natural number, at least 2. -/
  | finite (mult : Nat) (two_le : 2 ≤ mult)
deriving DecidableEq, Repr, Inhabited

/-- The two open parameters together. -/
structure Params where
  sbox : SBox
  budgetMult : BudgetMult

/-- The table of this hardware. The spec gives no entry of it (R29; spec/91_not_in_source.md N1). Log entry 5. -/
opaque Config.sbox : SBox

/-- The budget multiplier of this hardware. The spec gives no value (R123; spec/91_not_in_source.md N7). Log entry 6. -/
opaque Config.budgetMult : BudgetMult

/-- The parameters the machine runs at. -/
def Config.params : Params := ⟨Config.sbox, Config.budgetMult⟩

end Sys2Proof
end

