-- ==== Sys2Proof/Syntax.lean ====
section
/-!
DEFINITION. The eleven operations of RSU-CORE (spec/30_encoding.md R61 to R63), one constructor per row of
spec/opcode_table.json. Operands have the exact range the encoding gives them (R62), so every term of `Instr` can be
presented; what can be ill formed is a command word (WellFormed.lean).
-/

namespace Sys2Proof

/-- The two legal values of `CTRL.MODE` (spec/10_state.md R25). There is no third mode. -/
inductive Mode where
  /-- 0: S-box extraction and the Von Neumann filter. -/
  | canonical
  /-- 1: bit 0 of `State`, no filter. -/
  | simplified
deriving DecidableEq, Repr

/-- The operations. -/
inductive Instr where
  /-- `LOADSEED seed` (spec/44_system_ops.md R150). -/
  | loadseed (seed : Word)
  /-- `SETMODE mode` (spec/44_system_ops.md R152). -/
  | setmode (mode : Mode)
  /-- `GENERATE length` (spec/43_keygenerator.md R130). -/
  | generate (length : Word)
  /-- `DRAW` (spec/42_substitutor.md R107). -/
  | draw
  /-- `STEP x` (spec/40_state_transformer.md R84). -/
  | step (x : Word)
  /-- `ROTR3 x` (spec/41_rotator.md R93). -/
  | rotr3 (x : Word)
  /-- `EXTRACT x` (spec/42_substitutor.md R106). -/
  | extract (x : Word)
  /-- `RDSTATE` (spec/44_system_ops.md R153). -/
  | rdstate
  /-- `RDSTATUS` (spec/44_system_ops.md R154). -/
  | rdstatus
  /-- `SBOXRD idx` (spec/42_substitutor.md R103). -/
  | sboxrd (idx : Nibble)
  /-- `VNPAIR b1, b2` (spec/43_keygenerator.md R121). -/
  | vnpair (b1 b2 : Bit)
deriving DecidableEq, Repr

end Sys2Proof
end

