-- ==== Sys2Proof/WellFormed.lean ====
section
/-!
DEFINITION. Which command words are well formed, read from the opcode table alone (spec/opcode_table.json; its rules are
spec/30_encoding.md R61, R63 to R65) and independently of the decoder. A term of `Instr` cannot be ill formed, because
its operands have exactly the range of their fields (R62); a word can, by a reserved `op` or by a reserved `arg` bit.
-/

namespace Sys2Proof

/-- A row of the opcode table: the bits that are fixed and their values. -/
structure Row where
  mask : CmdWord
  pattern : CmdWord
deriving DecidableEq, Repr

/-- The table, in its own order: `match` and `mask` of spec/opcode_table.json. -/
def opcodeRows : List Row :=
  [ ⟨0xF0000000000000000, 0x00000000000000000⟩,   -- LOADSEED
    ⟨0xFFFFFFFFFFFFFFFFE, 0x10000000000000000⟩,   -- SETMODE
    ⟨0xF0000000000000000, 0x20000000000000000⟩,   -- GENERATE
    ⟨0xFFFFFFFFFFFFFFFFF, 0x30000000000000000⟩,   -- DRAW
    ⟨0xF0000000000000000, 0x40000000000000000⟩,   -- STEP
    ⟨0xF0000000000000000, 0x50000000000000000⟩ ] ++  -- ROTR3
  [ ⟨0xF0000000000000000, 0x60000000000000000⟩,   -- EXTRACT
    ⟨0xFFFFFFFFFFFFFFFFF, 0x70000000000000000⟩,   -- RDSTATE
    ⟨0xFFFFFFFFFFFFFFFFF, 0x80000000000000000⟩,   -- RDSTATUS
    ⟨0xFFFFFFFFFFFFFFFF0, 0x90000000000000000⟩,   -- SBOXRD
    ⟨0xFFFFFFFFFFFFFFFFC, 0xA0000000000000000⟩ ]  -- VNPAIR

/-- A word matches a row when its fixed bits have the row's values. -/
def Row.covers (r : Row) (w : CmdWord) : Bool := w &&& r.mask == r.pattern

/-- A word is well formed when some row covers it (R64, R65: every other word is illegal). -/
def wellFormed (w : CmdWord) : Bool := opcodeRows.any fun r => r.covers w

/-- No word can be covered by both rows: some bit fixed in both has different values. -/
def Row.apart (r q : Row) : Bool := (r.pattern ^^^ q.pattern) &&& (r.mask &&& q.mask) != 0

end Sys2Proof
end

