-- ==== Sys2Proof/Decode.lean ====
section
/-!
DEFINITION. The decoder and the encoder (spec/30_encoding.md R60 to R66), and how the host's table words reach them.
Decoding is total on the 2^68 command words and refuses by name.
-/

namespace Sys2Proof

/-- Why a command word names no operation. -/
inductive Illegal where
  /-- `op` is 0xB to 0xF (R64). -/
  | reservedOp
  /-- A reserved bit of `arg` is not 0 (R65). -/
  | reservedArg
deriving DecidableEq, Repr

/-- `CMD[67:64]` (R60). -/
def opField (w : CmdWord) : BitVec 4 := w.extractLsb' 64 4

/-- `CMD[63:0]` (R60). -/
def argField (w : CmdWord) : Word := w.extractLsb' 0 64

/-- The mode a `mode` bit stands for (spec/10_state.md R25). -/
def Mode.ofBit : Bit → Mode
  | false => .canonical
  | true => .simplified

/-- The value of `CTRL.MODE` (spec/10_state.md R25). -/
def Mode.bit : Mode → Bit
  | .canonical => false
  | .simplified => true

/-- Strict decoding of a reserved field: the instruction if the field is 0, a refusal if not (R65). -/
def whenZero {n : Nat} (reserved : BitVec n) (i : Instr) : Except Illegal Instr :=
  if reserved = 0 then .ok i else .error .reservedArg

/-- The decoder (R66). -/
def decode (w : CmdWord) : Except Illegal Instr :=
  let arg := argField w
  match (opField w).toNat with
  | 0x0 => .ok (.loadseed arg)
  | 0x1 => whenZero (arg.extractLsb' 1 63) (.setmode (.ofBit (arg.getLsbD 0)))
  | 0x2 => .ok (.generate arg)
  | 0x3 => whenZero arg .draw
  | 0x4 => .ok (.step arg)
  | 0x5 => .ok (.rotr3 arg)
  | 0x6 => .ok (.extract arg)
  | 0x7 => whenZero arg .rdstate
  | 0x8 => whenZero arg .rdstatus
  | 0x9 => whenZero (arg.extractLsb' 4 60) (.sboxrd (arg.extractLsb' 0 4))
  | 0xA => whenZero (arg.extractLsb' 2 62) (.vnpair (arg.getLsbD 0) (arg.getLsbD 1))
  | _ => .error .reservedOp

/-- The `op` of an operation (R63). -/
def Instr.op : Instr → BitVec 4
  | .loadseed _ => 0x0
  | .setmode _ => 0x1
  | .generate _ => 0x2
  | .draw => 0x3
  | .step _ => 0x4
  | .rotr3 _ => 0x5
  | .extract _ => 0x6
  | .rdstate => 0x7
  | .rdstatus => 0x8
  | .sboxrd _ => 0x9
  | .vnpair _ _ => 0xA

/-- The `arg` of an operation, its reserved bits 0 (R61, R62). -/
def Instr.arg : Instr → Word
  | .loadseed seed => seed
  | .setmode mode => (0 : BitVec 63) ++ BitVec.ofBool mode.bit
  | .generate length => length
  | .draw => 0
  | .step x => x
  | .rotr3 x => x
  | .extract x => x
  | .rdstate => 0
  | .rdstatus => 0
  | .sboxrd idx => (0 : BitVec 60) ++ idx
  | .vnpair b1 b2 => (0 : BitVec 62) ++ BitVec.ofBool b2 ++ BitVec.ofBool b1

/-- The one command word of an operation (R60). -/
def encode (i : Instr) : CmdWord := i.op ++ i.arg

/-- The pseudo-operation `INIT seed, mode`: `SETMODE mode`, then `LOADSEED seed` (R71). -/
def pseudoInit (seed : Word) (mode : Mode) : List Instr := [.setmode mode, .loadseed seed]

/-- The command word among `nbits` bits numbered as spec/opcode_table.json numbers them. A command is 68 bits (R69), so in a
carrier of whole bytes the bits above bit 67 belong to no command and must be 0 (log entry 8). -/
def tableWord (nbits w : Nat) : Option CmdWord :=
  let bits := w % 2 ^ nbits
  if bits < 2 ^ 68 then some (BitVec.ofNat 68 bits) else none

/-- The instruction the decoder reads from a table row's bits, none where it refuses. -/
def decodeTableWord (nbits w : Nat) : Option Instr :=
  match tableWord nbits w with
  | none => none
  | some c =>
    match decode c with
    | .ok i => some i
    | .error _ => none

end Sys2Proof
end

