-- ==== Sys2Proof/Machine/State.lean ====
section
/-!
DEFINITION. The state of RSU-CORE as plain data (spec/10_state.md R20), the state after reset (spec/70_reset_and_hazards.md
R201), and the reasons a step of the model can stop.
-/

namespace Sys2Proof.Machine

/-- The register `State` (alias `x[0]`) together with `STATUS.SEEDED`, which means "`State` holds a value"
(spec/10_state.md R21, R26). The spec forbids giving the unseeded register any value (R21; log entry 3). -/
inductive StateReg where
  /-- `STATUS.SEEDED` = 0: after reset and before the first `LOADSEED`. -/
  | noValue
  /-- `STATUS.SEEDED` = 1, and the 64 bits. -/
  | value (v : Word)
deriving DecidableEq, Repr

/-- The sequencer's `phase` (spec/10_state.md R31). -/
inductive Phase where
  /-- "awaiting first bit of pair" -/
  | first
  /-- "awaiting second bit of pair" -/
  | second
deriving DecidableEq, Repr

/-- The sequencer is idle or executing one command (spec/10_state.md R30). `GENERATE` is the only command that takes more
than one step of the model (log entry 2); its `length` operand is held while it runs (spec/43_keygenerator.md R124). -/
inductive Activity where
  | idle
  | generating (length : Word)
deriving DecidableEq, Repr

/-- What the core answers a command with: the word `RSP[66:0]` and, for a `GENERATE` that succeeded, the bit sequence, first
emitted bit first (spec/30_encoding.md R67, R68). -/
structure Response where
  word : RspWord
  bits : Option (List Bit)
deriving DecidableEq, Repr

/-- The faults of the hardware (spec/60_exceptions.md R171). They end a command with a response, not the machine. -/
inductive Cause where
  | illegalCommand
  | notSeeded
  | extractionExhausted
deriving DecidableEq, Repr

/-- What the host does in one step of the model (spec/70_reset_and_hazards.md R214; log entries 1 and 10). -/
inductive HostMove where
  /-- Present a command word. It stays presented until the core accepts it. -/
  | command (w : CmdWord)
  /-- Do nothing for one step. -/
  | wait
  /-- Assert `rst` and release it. -/
  | reset
deriving DecidableEq, Repr

/-- Why the machine stops with a fault. -/
inductive Fault where
  /-- Raised by the sequencer when a `GENERATE` is in progress on a `State` that holds no value. SAFE: no run reaches such a
  state (Safety.lean, `State.Inv`), and the spec gives an unseeded `State` no value to draw from (spec/10_state.md R21; log
  entry 9). -/
  | unseededDraw
deriving DecidableEq, Repr

/-- Why the machine refuses an instruction. -/
inductive Refusal where
  /-- An arm of `exec` without a meaning. SAFE. No arm answers it: every operation has its meaning. -/
  | notModelled (mnemonic : String)
deriving DecidableEq, Repr

/-- The architectural state (spec/10_state.md R20, spec/30_encoding.md R60, R67). -/
structure State where
  /-- `State` and `STATUS.SEEDED` (R21, R26). -/
  state : StateReg
  /-- `CTRL.MODE` (R25). -/
  mode : Mode
  /-- `STATUS.XH` (R26). -/
  xh : Bit
  /-- `STATUS.ILL` (R26). -/
  ill : Bit
  /-- `STATUS.NS` (R26). -/
  ns : Bit
  /-- Idle, or the command in progress (R30). -/
  activity : Activity
  /-- `phase` (R31). -/
  phase : Phase
  /-- The latch `b1` (R32). -/
  b1 : Bit
  /-- The counter `draws` (R33). -/
  draws : Nat
  /-- `OUT`, first emitted bit first (R34). -/
  out : List Bit
  /-- The response port. -/
  rsp : Option Response
  /-- What the host does next, oldest first; a command at its head is on the command port. The model's own field (log
  entry 1). -/
  host : List HostMove
deriving DecidableEq, Repr

/-- The state after reset (spec/70_reset_and_hazards.md R201). `b1` is unspecified there; `false` is DESIGN CHOICE, log
entry 4. -/
def State.reset : State where
  state := .noValue
  mode := .canonical
  xh := false
  ill := false
  ns := false
  activity := .idle
  phase := .first
  b1 := false
  draws := 0
  out := []
  rsp := none
  host := []

end Sys2Proof.Machine
end

