-- ==== Sys2Proof/Machine/Operands.lean ====
section
/-!
DEFINITION. Operand and result forms: the operators of spec/00_scope.md R9 to R11, the words of the response
(spec/30_encoding.md R67, R68) and the order of output bits (spec/20_memory.md R45).
-/

namespace Sys2Proof.Machine

/-- `zext_64` of a bit (R10). -/
def bitWord (b : Bit) : Word := (0 : BitVec 63) ++ BitVec.ofBool b

/-- `zext_64` of a nibble (R10). -/
def nibbleWord (n : Nibble) : Word := (0 : BitVec 60) ++ n

/-- `v[3:0]` (R9; spec/42_substitutor.md R100). -/
def lowNibble (v : Word) : Nibble := v.extractLsb' 0 4

/-- `rotr64(x, n)` for 0 < n < 64 (R11). -/
def rotr64 (x : Word) (n : Nat) : Word := (x >>> n) ||| (x <<< (64 - n))

/-- `rotl64(x, n)` for 0 < n < 64 (R11). No operation of the hardware uses it. -/
def rotl64 (x : Word) (n : Nat) : Word := (x <<< n) ||| (x >>> (64 - n))

/-- The cause code of a fault (spec/60_exceptions.md R171). -/
def Cause.code : Cause → BitVec 2
  | .illegalCommand => 1
  | .notSeeded => 2
  | .extractionExhausted => 3

/-- `RSP` of `respond Ok(d)`: fault 0, cause 0, the data (R67). -/
def okWord (d : Word) : RspWord := (0 : BitVec 1) ++ (0 : BitVec 2) ++ d

/-- `RSP` of `raise F`: fault 1, the cause, data 0 (R67). -/
def faultWord (c : Cause) : RspWord := (1 : BitVec 1) ++ c.code ++ (0 : Word)

/-- `RSP[66]` (R67). -/
def Response.isFault (r : Response) : Bit := r.word.getLsbD 66

/-- `RSP[65:64]` (R67). -/
def Response.cause (r : Response) : BitVec 2 := r.word.extractLsb' 64 2

/-- `RSP[63:0]` (R67). -/
def Response.data (r : Response) : Word := r.word.extractLsb' 0 64

/-- The number an output sequence denotes: the first emitted bit is the most significant (spec/20_memory.md R45). -/
def packBits (bits : List Bit) : Nat := bits.foldl (fun n b => 2 * n + b.toNat) 0

/-- The seed a host presents for a wider seed: its low 64 bits (spec/44_system_ops.md R151). -/
def foldSeed (s : Nat) : Word := BitVec.ofNat 64 s

end Sys2Proof.Machine
end

