-- ==== Sys2Proof/Machine/Flags.lean ====
section
/-!
DEFINITION. `STATUS`: its flags, the word `RDSTATUS` reads, and the sticky flag of each fault (spec/10_state.md R26,
spec/60_exceptions.md R175). No operation sets a flag from arithmetic (spec/10_state.md R24).
-/

namespace Sys2Proof.Machine

/-- `STATUS.SEEDED`: `State` holds a value (R26). -/
def State.seeded (s : State) : Bit :=
  match s.state with
  | .noValue => false
  | .value _ => true

/-- The data of `RDSTATUS` (spec/44_system_ops.md R154): bit 0 `SEEDED`, 1 `MODE`, 2 `XH`, 3 `ILL`, 4 `NS`, the rest 0. -/
def State.statusWord (s : State) : Word :=
  (0 : BitVec 59) ++ BitVec.ofBool s.ns ++ BitVec.ofBool s.ill ++ BitVec.ofBool s.xh ++
    BitVec.ofBool s.mode.bit ++ BitVec.ofBool s.seeded

/-- Set the sticky flag of a fault (spec/60_exceptions.md R171, R175). -/
def State.setSticky (c : Cause) (s : State) : State :=
  match c with
  | .illegalCommand => { s with ill := true }
  | .notSeeded => { s with ns := true }
  | .extractionExhausted => { s with xh := true }

/-- Clear the three sticky flags (spec/44_system_ops.md R150). -/
def State.clearSticky (s : State) : State := { s with xh := false, ill := false, ns := false }

end Sys2Proof.Machine
end

