-- ==== Sys2Proof/Machine/Ops.lean ====
section
/-!
DEFINITION. The operations the meanings share: responding, taking a fault, reading and writing `State`, reading `SBOX`.

There is no return from a fault to write beside `raiseFault`: "There is no return-from-trap operation because there is no
trap context to return from" (spec/60_exceptions.md R179); after the response the core is idle.
-/

namespace Sys2Proof.Machine

/-- What a step of the model answers. -/
abbrev Result := Host.Outcome State Fault Refusal

/-- `respond Ok(d)` (spec/30_encoding.md R67). -/
def respond (d : Word) (s : State) : State := { s with rsp := some ⟨okWord d, none⟩ }

/-- `respond Ok(0, bits)` (spec/30_encoding.md R67, R68). -/
def respondBits (bits : List Bit) (s : State) : State := { s with rsp := some ⟨okWord 0, some bits⟩ }

/-- The sequencer goes idle: `phase = FIRST`, `OUT = []`, `draws = 0` (spec/10_state.md R23). The latch `b1` is not touched
(log entry 4). -/
def goIdle (s : State) : State := { s with activity := .idle, phase := .first, out := [], draws := 0 }

/-- `raise F`: set the sticky flag of `F`, respond with its cause and no bits, return the sequencer to idle
(spec/60_exceptions.md R170). Control goes nowhere: nothing is saved and no mode changes. -/
def raiseFault (c : Cause) (s : State) : State :=
  { goIdle (s.setSticky c) with rsp := some ⟨faultWord c, none⟩ }

/-- Run `k` on the value of `State`, or raise `NotSeeded` when it holds none (spec/60_exceptions.md R173). -/
def withSeed (s : State) (k : Word → Result) : Result :=
  match s.state with
  | .noValue => .next (raiseFault .notSeeded s)
  | .value v => k v

/-- `State <- v` (spec/00_scope.md R12). -/
def writeState (v : Word) (s : State) : State := { s with state := .value v }

/-- `SBOX[i]` (spec/20_memory.md R41): total, without side effect. -/
def readSBox (sbox : SBox) (i : Nibble) : Nibble := sbox i

/-- A command leaves the port: what the host does after it is next, and the response port is empty, because the host has
taken the previous response (spec/30_encoding.md R68; log entry 7). -/
def takeCommand (rest : List HostMove) (s : State) : State := { s with host := rest, rsp := none }

end Sys2Proof.Machine
end

