-- ==== Sys2Proof/Machine/Rotator.lean ====
section
/-!
DEFINITION. The block `rotator_64bit_right3`: the function `rotr3` and the operation `ROTR3` (spec/41_rotator.md).
-/

namespace Sys2Proof.Machine

/-- `rotr3(x)` (R90). -/
def rotr3 (x : Word) : Word := (x >>> 3) ||| (x <<< 61)

/-- `ROTR3 x` (R93). -/
def execRotr3 (x : Word) (s : State) : Result := .next (respond (rotr3 x) s)

end Sys2Proof.Machine
end

