-- ==== Sys2Proof/Machine/Transformer.lean ====
section
/-!
DEFINITION. The block `prng_state_transformer`: the spec's function `step` and the operation `STEP`
(spec/40_state_transformer.md). The spec's `step` is `transform` here; `step` is the machine's.
-/

namespace Sys2Proof.Machine

/-- `K` (spec/10_state.md R27). -/
def K : Word := 0x5555555555555555

/-- `M` = 2^64 - 59 (spec/10_state.md R28). -/
def M : Nat := 2 ^ 64 - 59

/-- `step(s)` (R80). The odd branch is exact on naturals: `3 × s + 1` needs 66 bits (R82). -/
def transform (s : Word) : Word :=
  if s.getLsbD 0 then BitVec.ofNat 64 ((3 * s.toNat + 1) % M) else (s >>> 1) ^^^ K

/-- `STEP x` (R84). -/
def execStep (x : Word) (s : State) : Result := .next (respond (transform x) s)

end Sys2Proof.Machine
end

