-- ==== Sys2Proof/Machine/Substitutor.lean ====
section
/-!
DEFINITION. The block `sbox_nibble_perm` and the raw-bit draw: `SBOXRD`, `EXTRACT`, `DRAW` (spec/42_substitutor.md).
-/

namespace Sys2Proof.Machine

/-- `sub_out`: the entry the low nibble selects (spec/30_encoding.md R72, R100). -/
def substitute (sbox : SBox) (v : Word) : Nibble := readSBox sbox (lowNibble v)

/-- `extract(v)`: bit 0 of the entry (R101). -/
def extract (sbox : SBox) (v : Word) : Bit := (substitute sbox v).getLsbD 0

/-- The draw map `T` (R104). -/
def drawMap (v : Word) : Word := rotr3 (transform v)

/-- The raw bit of a draw whose new `State` is `v` (R105; in simplified mode decision D4, log entry 11). -/
def rawBit (P : Params) (mode : Mode) (v : Word) : Bit :=
  match mode with
  | .canonical => extract P.sbox v
  | .simplified => v.getLsbD 0

/-- One raw-bit draw from `v`: the new `State`, then the bit read from it (R104, R105; spec/20_memory.md R52). -/
def rawDraw (P : Params) (mode : Mode) (v : Word) : Word × Bit := (drawMap v, rawBit P mode (drawMap v))

/-- The effect of `DRAW` (R107) with the parameters given. -/
def drawWith (P : Params) (s : State) : Result :=
  withSeed s fun v =>
    let r := rawDraw P s.mode v
    .next (respond (bitWord r.2) (writeState r.1 s))

/-- `DRAW` (R107). -/
def execDraw (s : State) : Result := drawWith Config.params s

/-- `EXTRACT x` (R106): the S-box in both modes. -/
def execExtract (x : Word) (s : State) : Result := .next (respond (bitWord (extract Config.params.sbox x)) s)

/-- `SBOXRD idx` (R103). -/
def execSboxrd (idx : Nibble) (s : State) : Result :=
  .next (respond (nibbleWord (readSBox Config.params.sbox idx)) s)

end Sys2Proof.Machine
end

