-- ==== Sys2Proof/Machine/Debiaser.lean ====
section
/-!
DEFINITION. The block `vonneumann_debiaser`: the pair decision, the filter over any raw-bit source, the sequencer of
`GENERATE` in both modes, and the operations `VNPAIR` and `GENERATE` (spec/43_keygenerator.md).

The filter stands here twice. `filterMove` is one row of the sequencer's table (R124) and is what the machine runs.
`vnFilter` is the loop of R122, pair by pair, and is what statements compare it with.
-/

namespace Sys2Proof.Machine

/-- `vnpair(b1, b2)` as `(emit, out)` (R120). -/
def vnpair (b1 b2 : Bit) : Bit × Bit := (b1 ^^ b2, b1 && !b2)

/-- The data of `VNPAIR`: bit 0 `out`, bit 1 `emit` (R121). -/
def pairWord (p : Bit × Bit) : Word := (0 : BitVec 62) ++ BitVec.ofBool p.1 ++ BitVec.ofBool p.2

/-- `VNPAIR b1, b2` (R121). -/
def execVnpair (b1 b2 : Bit) (s : State) : Result := .next (respond (pairWord (vnpair b1 b2)) s)

/-- `DrawBudget(length)` = `BUDGET_MULT × length`, exact; none is the spec's `∞` (R123). -/
def drawBudget (m : BudgetMult) (length : Nat) : Option Nat :=
  match m with
  | .unbounded => none
  | .finite mult _ => some (mult * length)

/-- Test B: the two draws of a pair would pass the budget (R122, R123). -/
def overBudget (budget : Option Nat) (draws : Nat) : Bool :=
  match budget with
  | none => false
  | some b => b < draws + 2

/-- The filter's own state over a source of type `σ` (R122, R124). -/
structure FilterState (σ : Type) where
  src : σ
  phase : Phase
  b1 : Bit
  draws : Nat
  out : List Bit
deriving DecidableEq, Repr

/-- What one transition of the sequencer leads to (R124). -/
inductive FilterMove (σ : Type) where
  | running (f : FilterState σ)
  | done (bits : List Bit)
  | exhausted
deriving DecidableEq, Repr

/-- `OUT` after a pair: the produced bit appended when the pair emits one (R120, R124). -/
def appendPair (out : List Bit) (b1 b2 : Bit) : List Bit :=
  if (vnpair b1 b2).1 then out ++ [(vnpair b1 b2).2] else out

/-- One row of the canonical sequencer's table (R124). -/
def filterMove {σ : Type} (src : σ → σ × Bit) (length : Nat) (budget : Option Nat) (f : FilterState σ) :
    FilterMove σ :=
  match f.phase with
  | .first =>
    if f.out.length = length then .done f.out
    else if overBudget budget f.draws then .exhausted
    else
      let r := src f.src
      .running { f with src := r.1, b1 := r.2, draws := f.draws + 1, phase := .second }
  | .second =>
    let r := src f.src
    .running { f with src := r.1, draws := f.draws + 1, phase := .first, out := appendPair f.out f.b1 r.2 }

/-- One turn of the simplified loop: every raw bit is emitted, no pair is formed, no budget is consulted (R129). -/
def plainMove {σ : Type} (src : σ → σ × Bit) (length : Nat) (f : FilterState σ) : FilterMove σ :=
  if f.out.length = length then .done f.out
  else
    let r := src f.src
    .running { f with src := r.1, draws := f.draws + 1, out := f.out ++ [r.2] }

/-- One transition of a `GENERATE` in a mode, over the core's own draw path (R128, R129). -/
def generateMove (P : Params) (mode : Mode) (length : Nat) (f : FilterState Word) : FilterMove Word :=
  match mode with
  | .canonical => filterMove (rawDraw P .canonical) length (drawBudget P.budgetMult length) f
  | .simplified => plainMove (rawDraw P .simplified) length f

/-- The sequencer's fields of the machine with `State` = `v`, as the filter's state. -/
def State.toFilter (s : State) (v : Word) : FilterState Word := ⟨v, s.phase, s.b1, s.draws, s.out⟩

/-- The machine with the filter's state written back. -/
def State.ofFilter (s : State) (f : FilterState Word) : State :=
  { writeState f.src s with phase := f.phase, b1 := f.b1, draws := f.draws, out := f.out }

/-- What a transition does to the machine: draw, complete with `OUT`, or raise `ExtractionExhausted` with `State` left where
the draws have taken it (R124, R128, R129). -/
def applyMove (s : State) (m : FilterMove Word) : Result :=
  match m with
  | .running f => .next (s.ofFilter f)
  | .done bits => .next (respondBits bits (goIdle s))
  | .exhausted => .next (raiseFault .extractionExhausted s)

/-- One transition of a `GENERATE length` in progress, with the parameters given (R124, R128, R129). -/
def sequencerWith (P : Params) (length : Word) (s : State) : Result :=
  match s.state with
  | .noValue => .fault .unseededDraw
  | .value v => applyMove s (generateMove P s.mode length.toNat (s.toFilter v))

/-- `GENERATE` begins: `OUT = []`, `draws = 0`, `phase = FIRST` (R122, R131). -/
def startGenerate (length : Word) (s : State) : State :=
  { s with activity := .generating length, phase := .first, out := [], draws := 0 }

/-- `GENERATE length` (R130): it needs a seed for every `length`, 0 included; then the sequencer runs. -/
def execGenerate (length : Word) (s : State) : Result := withSeed s fun _ => .next (startGenerate length s)

/-- How a filter ends: the source's state, `OUT` and `draws`; or the state and `draws` at exhaustion (R122). -/
inductive FilterEnd (σ : Type) where
  | done (src : σ) (out : List Bit) (draws : Nat)
  | exhausted (src : σ) (draws : Nat)
deriving DecidableEq, Repr

/-- The loop of R122 from given values of its variables, for at most `fuel` turns; none when it has not returned by then.
The spec's `VNFilter` returns `e` exactly when some `fuel` gives `some e`. -/
def vnFilterLoop {σ : Type} (src : σ → σ × Bit) (length : Nat) (budget : Option Nat) :
    Nat → σ → List Bit → Nat → Option (FilterEnd σ)
  | 0, _, _, _ => none
  | fuel + 1, q, out, draws =>
    if out.length = length then some (.done q out draws)
    else if overBudget budget draws then some (.exhausted q draws)
    else
      let r1 := src q
      let r2 := src r1.1
      vnFilterLoop src length budget fuel r2.1 (if r1.2 ≠ r2.2 then out ++ [r1.2] else out) (draws + 2)

/-- `VNFilter(src, σ0, length, budget)` within `fuel` turns (R122). -/
def vnFilter {σ : Type} (src : σ → σ × Bit) (start : σ) (length : Nat) (budget : Option Nat) (fuel : Nat) :
    Option (FilterEnd σ) :=
  vnFilterLoop src length budget fuel start [] 0

end Sys2Proof.Machine
end

