-- ==== Sys2Proof/Machine/System.lean ====
section
/-!
DEFINITION. Construction, configuration and read-back: `LOADSEED`, `SETMODE`, `RDSTATE`, `RDSTATUS`
(spec/44_system_ops.md).
-/

namespace Sys2Proof.Machine

/-- `LOADSEED seed` (R150). -/
def execLoadseed (seed : Word) (s : State) : Result := .next (respond 0 (writeState seed s).clearSticky)

/-- `SETMODE mode` (R152). -/
def execSetmode (mode : Mode) (s : State) : Result := .next (respond 0 { s with mode := mode })

/-- `RDSTATE` (R153). -/
def execRdstate (s : State) : Result := withSeed s fun v => .next (respond v s)

/-- `RDSTATUS` (R154). -/
def execRdstatus (s : State) : Result := .next (respond s.statusWord s)

end Sys2Proof.Machine
end

