-- ==== Sys2Proof/Machine/Dispatch.lean ====
section
/-!
DEFINITION. One arm per operation, each one call of its meaning.
-/

namespace Sys2Proof.Machine

def exec (i : Instr) (s : State) : Host.Outcome State Fault Refusal :=
  match i with
  | .loadseed seed => Sys2Proof.Machine.execLoadseed seed s
  | .setmode mode => Sys2Proof.Machine.execSetmode mode s
  | .generate length => Sys2Proof.Machine.execGenerate length s
  | .draw => Sys2Proof.Machine.execDraw s
  | .step x => Sys2Proof.Machine.execStep x s
  | .rotr3 x => Sys2Proof.Machine.execRotr3 x s
  | .extract x => Sys2Proof.Machine.execExtract x s
  | .rdstate => Sys2Proof.Machine.execRdstate s
  | .rdstatus => Sys2Proof.Machine.execRdstatus s
  | .sboxrd idx => Sys2Proof.Machine.execSboxrd idx s
  | .vnpair b1 b2 => Sys2Proof.Machine.execVnpair b1 b2 s

end Sys2Proof.Machine
end

