-- ==== Sys2Proof/Machine/Port.lean ====
section
/-!
DEFINITION. The ports between the core and the host: presenting a command word, accepting it, the core's own move, and reset
(spec/30_encoding.md R60, R67, R68; spec/70_reset_and_hazards.md R200, R203, R214).
-/

namespace Sys2Proof.Machine

/-- Execute a command word: the decoded operation, or `IllegalCommand` before anything else is looked at
(spec/60_exceptions.md R172, R177). -/
def runWord (w : CmdWord) (s : State) : Result :=
  match decode w with
  | .ok i => exec i s
  | .error _ => .next (raiseFault .illegalCommand s)

/-- The core's own move when it accepts nothing, with the parameters given: one transition of the `GENERATE` in progress; an
idle core waits with all its state kept (spec/60_exceptions.md R186). -/
def advanceWith (P : Params) (s : State) : Result :=
  match s.activity with
  | .idle => .next s
  | .generating length => sequencerWith P length s

/-- The core's own move. -/
def advance (s : State) : Result := advanceWith Config.params s

/-- A command word on the port: an idle core accepts and executes it; a busy core does not accept it and goes on
(spec/30_encoding.md R68). -/
def offerCommand (w : CmdWord) (rest : List HostMove) (s : State) : Result :=
  match s.activity with
  | .idle => runWord w (takeCommand rest s)
  | .generating _ => advance s

/-- `rst`: the state of R201, whatever was executing; the host's later moves stand (spec/70_reset_and_hazards.md R200,
R203; log entry 10). -/
def applyReset (rest : List HostMove) : State := { State.reset with host := rest }

/-- The host presents a word to an idle core next, before its other moves. -/
def presentWord (w : CmdWord) (s : State) : State :=
  { goIdle s with host := .command w :: s.host }

/-- A program is a straight list of commands (spec/30_encoding.md R71), presented in order. -/
def presentProgram (program : List Instr) : List HostMove := program.map fun i => .command (encode i)

end Sys2Proof.Machine
end

