-- ==== Sys2Proof/Machine/Step.lean ====
section
/-!
DEFINITION. One step of the machine: the host's next move, and what the core does with it (log entries 1 and 2).
-/

namespace Sys2Proof.Machine

/-- One step. -/
def step (s : State) : Host.Outcome State Fault Refusal :=
  match s.host with
  | [] => advance s
  | .wait :: rest => advance { s with host := rest }
  | .reset :: rest => .next (applyReset rest)
  | .command w :: rest => offerCommand w rest s

/-- `s` with a table word presented by the host, so that the next step accepts and runs it (log entry 8). -/
def State.withFetchWord (s : State) (nbits w : Nat) : State :=
  match tableWord nbits w with
  | none => s
  | some c => presentWord c s

end Sys2Proof.Machine
end

