-- ==== Sys2Proof/Safety.lean ====
section
/-!
DEFINITION. The terms statements use: well-formed responses, the invariant of the machine, quiet hosts, and the trap set.
-/

namespace Sys2Proof.Machine

/-- A response has the layout of spec/30_encoding.md R67, R68: without a fault the cause is 0, and the data is 0 beside a bit
sequence; with a fault the cause is one of the three codes, the data is 0 and there are no bits. -/
structure Response.Formed (r : Response) : Prop where
  ok_cause : r.isFault = false → r.cause = 0
  ok_bits : r.isFault = false → r.bits ≠ none → r.data = 0
  fault_cause : r.isFault = true → r.cause ≠ 0
  fault_empty : r.isFault = true → r.data = 0 ∧ r.bits = none

/-- The count is within the budget; every count is when there is no bound (spec/43_keygenerator.md R123). -/
def withinBudget (budget : Option Nat) (draws : Nat) : Prop := ∀ b, budget = some b → draws ≤ b

/-- The invariant of the machine: what holds at reset and after every step. -/
structure State.Inv (s : State) : Prop where
  /-- An idle sequencer holds no control state (spec/10_state.md R23, R31). -/
  idle_clean : s.activity = .idle → s.phase = .first ∧ s.out = [] ∧ s.draws = 0
  /-- Without a seed nothing is in progress and no budget was exhausted (spec/60_exceptions.md R173, R174). -/
  unseeded_idle : s.seeded = false → s.activity = .idle ∧ s.xh = false
  /-- No response while a command executes (spec/10_state.md R30). -/
  no_partial : ∀ n, s.activity = .generating n → s.rsp = none
  /-- A simplified `GENERATE` forms no pair and emits every bit it draws (spec/43_keygenerator.md R129). -/
  plain_counts : ∀ n, s.activity = .generating n → s.mode = .simplified →
    s.phase = .first ∧ s.draws = s.out.length ∧ s.out.length ≤ n.toNat
  /-- Between the pairs of a canonical `GENERATE` (spec/43_keygenerator.md R123, R133). -/
  first_counts : ∀ n, s.activity = .generating n → s.mode = .canonical → s.phase = .first →
    s.draws % 2 = 0 ∧ 2 * s.out.length ≤ s.draws ∧ s.out.length ≤ n.toNat ∧
      withinBudget (drawBudget Config.budgetMult n.toNat) s.draws
  /-- Inside a pair (spec/43_keygenerator.md R123, R133): the second draw fits as well. -/
  second_counts : ∀ n, s.activity = .generating n → s.mode = .canonical → s.phase = .second →
    s.draws % 2 = 1 ∧ 2 * s.out.length + 1 ≤ s.draws ∧ s.out.length < n.toNat ∧
      withinBudget (drawBudget Config.budgetMult n.toNat) (s.draws + 1)
  /-- The response port holds a response of the layout, or none. -/
  rsp_formed : ∀ r, s.rsp = some r → r.Formed

/-- The host makes no move on its own: it has none left, or its next one is a command, which a busy core does not accept. -/
def HostQuiet (host : List HostMove) : Prop := host = [] ∨ ∃ w rest, host = .command w :: rest

/-- `k` moves of the core alone, with the parameters given and the host doing nothing. -/
def runCore (P : Params) : Nat → State → Result
  | 0, s => .next s
  | k + 1, s =>
    match advanceWith P s with
    | .next t => runCore P k t
    | .fault f => .fault f
    | .refused r => .refused r

/-- What a `GENERATE` with no response yet looks like from outside (spec/43_keygenerator.md R135). -/
def State.StillGenerating (s : State) (length : Word) : Prop := s.activity = .generating length ∧ s.rsp = none

/-- The state a completed command leaves: the response given, `State` as given, the sequencer idle
(spec/43_keygenerator.md R128, R130). -/
def State.finished (s : State) (v : Word) (r : Response) : State :=
  { goIdle (writeState v s) with rsp := some r }

/-- The trap set `E`: the bits 0, 4, 8, ..., 60 are all 0 (spec/70_reset_and_hazards.md R208). -/
def InTrapSet (v : Word) : Prop := v &&& 0x1111111111111111 = 0

/-- The word `C`, which is `rotr3(K)` (spec/70_reset_and_hazards.md R208). -/
def trapMask : Word := 0xAAAAAAAAAAAAAAAA

end Sys2Proof.Machine
end

