-- ==== Sys2Proof/Certificates/Slice0/Obligations.lean ====
section
/-!
DEFINITION. The statements for the provers, in the order of OBLIGATIONS.json. Nothing is proved here.

"Stated" in a docstring: the statement formalises the rule named. "Derived": it follows from the rules named, or the spec
marks the rule as its own inference or reading.
-/

open Sys2Proof Sys2Proof.Machine

/-! ## Encoding -/

/-- Derived (spec/30_encoding.md sections 1 to 4): the decoder reads back every operation, with every operand at every value
its field holds, from the word the encoder writes. -/
def Obligations.DecodeOfEncodeIsTheInstruction : Prop :=
  ∀ i : Instr, decode (encode i) = .ok i

/-- Derived (spec/30_encoding.md sections 1 to 4): a word decodes to at most what encodes to it, so no bit of a word is
ignored and each operation has one word. -/
def Obligations.EncodeOfDecodedWordIsTheWord : Prop :=
  ∀ (w : CmdWord) (i : Instr), decode w = .ok i → encode i = w

/-- Derived (spec/30_encoding.md sections 1 to 4, spec/opcode_table.json): the decoder accepts exactly the words some row of the
opcode table covers, and each word is covered by at most one row. -/
def Obligations.DecoderAcceptsExactlyTheTableWords : Prop :=
  ∀ w : CmdWord, ((∃ i, decode w = .ok i) ↔ wellFormed w = true) ∧
    ∀ r ∈ opcodeRows, ∀ q ∈ opcodeRows, r.covers w = true → q.covers w = true → r = q

/-- Derived (spec/30_encoding.md sections 1 to 4, whose R66 the spec derives from its other rules): the decoder is the function
of R66, case by case on `op`, for every word. -/
def Obligations.DecodeIsTheSpecsCaseTable : Prop :=
  ∀ (op : Nibble) (arg : Word),
    (op = 0x0 → decode (op ++ arg) = .ok (.loadseed arg)) ∧
    (op = 0x1 → decode (op ++ arg) =
      if arg.toNat = 0 then .ok (.setmode .canonical) else if arg.toNat = 1 then .ok (.setmode .simplified)
      else .error .reservedArg) ∧
    (op = 0x2 → decode (op ++ arg) = .ok (.generate arg)) ∧
    (op = 0x3 → decode (op ++ arg) = if arg.toNat = 0 then .ok .draw else .error .reservedArg) ∧
    (op = 0x4 → decode (op ++ arg) = .ok (.step arg)) ∧
    (op = 0x5 → decode (op ++ arg) = .ok (.rotr3 arg)) ∧
    (op = 0x6 → decode (op ++ arg) = .ok (.extract arg)) ∧
    (op = 0x7 → decode (op ++ arg) = if arg.toNat = 0 then .ok .rdstate else .error .reservedArg) ∧
    (op = 0x8 → decode (op ++ arg) = if arg.toNat = 0 then .ok .rdstatus else .error .reservedArg) ∧
    (op = 0x9 → decode (op ++ arg) =
      if arg.toNat < 16 then .ok (.sboxrd (BitVec.ofNat 4 arg.toNat)) else .error .reservedArg) ∧
    (op = 0xA → decode (op ++ arg) =
      if arg.toNat < 4 then .ok (.vnpair (arg.toNat % 2 == 1) (arg.toNat / 2 == 1)) else .error .reservedArg) ∧
    (0xB ≤ op.toNat → decode (op ++ arg) = .error .reservedOp)

/-- Derived (spec/30_encoding.md section 3, the words written out under its opcode map): eleven words of the spec decode to the
operations they stand for. -/
def Obligations.WrittenOutWordsDecode : Prop :=
  decode 0x0000000003ADE68B1 = .ok (.loadseed 987654321) ∧
  decode 0x10000000000000001 = .ok (.setmode .simplified) ∧
  decode 0x20000000000000020 = .ok (.generate 32) ∧
  decode 0x30000000000000000 = .ok .draw ∧
  decode 0x45555555555555555 = .ok (.step 0x5555555555555555) ∧
  decode 0x50000000000000008 = .ok (.rotr3 8) ∧
  decode 0x60000000000000017 = .ok (.extract 0x17) ∧
  decode 0x70000000000000000 = .ok .rdstate ∧
  decode 0x80000000000000000 = .ok .rdstatus ∧
  decode 0x9000000000000000A = .ok (.sboxrd 10) ∧
  decode 0xA0000000000000002 = .ok (.vnpair false true)

/-- Derived (spec/30_encoding.md section 5; spec/60_exceptions.md section 2): the layout of the two kinds of response word, with
the fields read back from every one of them, and the three cause codes. -/
def Obligations.ResponseWordsHaveTheLayout : Prop :=
  (∀ (d : Word) (bits : Option (List Bit)),
    (Response.mk (okWord d) bits).isFault = false ∧ (Response.mk (okWord d) bits).cause = 0 ∧
    (Response.mk (okWord d) bits).data = d ∧ (okWord d).toNat = d.toNat) ∧
  ∀ (c : Cause) (bits : Option (List Bit)),
    (Response.mk (faultWord c) bits).isFault = true ∧ (Response.mk (faultWord c) bits).data = 0 ∧
    (Response.mk (faultWord c) bits).cause = c.code ∧ (faultWord c).toNat = 2 ^ 66 + c.code.toNat * 2 ^ 64 ∧
    c.code.toNat = (match c with
      | .illegalCommand => 1
      | .notSeeded => 2
      | .extractionExhausted => 3)

/-! ## The step, the ports and reset -/

/-- Derived (spec/30_encoding.md sections 1 and 5; the host's moves and when the response port empties are the model's, log
entries 1 and 7): an idle core with a decodable word on its port runs the decoded operation, with the word taken off the port
and the previous response gone. -/
def Obligations.StepRunsTheDecodedInstruction : Prop :=
  ∀ (s : State) (w : CmdWord) (rest : List HostMove) (i : Instr),
    s.activity = .idle → s.host = .command w :: rest → decode w = .ok i →
    step s = exec i { s with host := rest, rsp := none }

/-- Derived (spec/30_encoding.md sections 1 and 5; log entries 7 and 8): a table word presented by `withFetchWord` is what the next step runs,
from any state. -/
def Obligations.FetchWordIsRunByTheNextStep : Prop :=
  ∀ (s : State) (i : Instr),
    ∃ t, step (s.withFetchWord 72 (encode i).toNat) = exec i t ∧ decodeTableWord 72 (encode i).toNat = some i ∧
      t = { s with activity := .idle, phase := .first, out := [], draws := 0, rsp := none }

/-- Stated, R64, R65, R172: a word with a reserved `op`, or with a reserved `arg` bit that is not 0, raises `IllegalCommand`
before anything else is looked at: of the core's state only `STATUS.ILL` changes, whatever the other conditions are. Every
other word decodes to an operation. -/
def Obligations.IllegalWordRaisesIllegalCommandOnly : Prop :=
  ∀ (op : Nibble) (arg : Word),
    if 0xB ≤ op.toNat ∨ (op = 0x1 ∧ 2 ≤ arg.toNat) ∨ (op = 0x9 ∧ 16 ≤ arg.toNat) ∨ (op = 0xA ∧ 4 ≤ arg.toNat) ∨
      ((op = 0x3 ∨ op = 0x7 ∨ op = 0x8) ∧ arg ≠ 0)
    then ∀ (s : State) (rest : List HostMove), s.Inv → s.activity = .idle → s.host = .command (op ++ arg) :: rest →
      step s = .next { s with ill := true, rsp := some ⟨faultWord .illegalCommand, none⟩, host := rest }
    else ∃! i, decode (op ++ arg) = .ok i

/-- Derived (spec/60_exceptions.md section 1, R170; that the latch `b1` stands is the model's choice, log entry 4): `raise
F` sets the sticky flag of `F` and no other, responds `fault` = 1, `cause` = the code of `F`, data 0 and no bits, and
returns the sequencer to idle. It does nothing else: `State`, `MODE`, the latch and the host's moves stand. -/
def Obligations.RaiseDoesThreeThingsAndNothingElse : Prop :=
  ∀ (c : Cause) (s : State),
    raiseFault c s = { s with
      ill := s.ill || decide (c = .illegalCommand)
      ns := s.ns || decide (c = .notSeeded)
      xh := s.xh || decide (c = .extractionExhausted)
      rsp := some ⟨(1 : BitVec 1) ++ c.code ++ (0 : Word), none⟩
      activity := .idle
      phase := .first
      out := []
      draws := 0 } ∧
    c.code = (match c with
      | .illegalCommand => 1
      | .notSeeded => 2
      | .extractionExhausted => 3)

/-- Derived (spec/30_encoding.md section 5; spec/93_implementation_defined.md U12; that the command waits is the model's
choice, log entry 1): a core that executes a `GENERATE` does not accept the command presented: the step is the one a
silent host would see, and the command stays presented. -/
def Obligations.BusyCoreDoesNotAcceptACommand : Prop :=
  ∀ (s : State) (n : Word) (w : CmdWord) (rest : List HostMove),
    s.activity = .generating n → s.host = .command w :: rest →
    step s = advance s ∧
    ∀ t, step s = .next t → t.host = s.host ∧ step { s with host := [] } = .next { t with host := [] }

/-- Derived (spec/70_reset_and_hazards.md sections 1 and 2; that a reset is a move of the host is the model's choice, log
entry 10, and so is the value of the latch `b1` after it, log entry 4): reset gives the reset state from every state, also
in the middle of a command, which gets no response. -/
def Obligations.ResetAbandonsWhateverExecutes : Prop :=
  ∀ (s : State) (rest : List HostMove), s.host = .reset :: rest →
    step s = .next { State.reset with host := rest }

/-- Stated, R201: every piece of state after reset, and the response of `RDSTATUS` directly after it. The latch `b1` is
unspecified there: with whatever value in it, every run from reset does the same, but for the latch itself. -/
def Obligations.ResetStateIsTheSpecs : Prop :=
  State.reset.state = .noValue ∧ State.reset.seeded = false ∧ State.reset.mode.bit = false ∧
  State.reset.xh = false ∧ State.reset.ill = false ∧ State.reset.ns = false ∧
  State.reset.activity = .idle ∧ State.reset.phase = .first ∧ State.reset.out = [] ∧ State.reset.draws = 0 ∧
  State.reset.rsp = none ∧ State.reset.host = [] ∧
  step (State.reset.withFetchWord 72 0x80000000000000000) =
    .next { State.reset with rsp := some ⟨okWord 0, none⟩ } ∧
  ∀ (host : List HostMove) (b : Bit) (k : Nat) (t : State),
    Sys2Proof.core.run k { State.reset with host := host } = .next t →
    ∃ u : State, Sys2Proof.core.run k { State.reset with host := host, b1 := b } = .next u ∧ u = { t with b1 := u.b1 }

/-- Derived (spec/60_exceptions.md section 13; that the response port goes on showing its response is the model's choice,
log entry 7): an idle core whose host does nothing keeps all its state. -/
def Obligations.IdleCoreKeepsItsState : Prop :=
  ∀ s : State, s.activity = .idle →
    (s.host = [] → step s = .next s) ∧
    ∀ rest, s.host = .wait :: rest → step s = .next { s with host := rest }

/-- Derived (spec/20_memory.md section 7): while the host does nothing, the machine's own run is the run of the core at the
parameters of the hardware, which the statements about `GENERATE` speak of. -/
def Obligations.RunWithSilentHostIsTheCoresRun : Prop :=
  ∀ (k : Nat) (s : State), s.host = [] → Sys2Proof.core.run k s = runCore Config.params k s

/-- Derived (spec/30_encoding.md section 5; spec/70_reset_and_hazards.md section 5): every word presented to an idle core gets
its one response in the step that accepts it, but for a `GENERATE` on a seeded core, which begins to execute. -/
def Obligations.AcceptedWordRespondsAtOnceOrGenerates : Prop :=
  ∀ (s : State) (w : CmdWord) (rest : List HostMove),
    s.activity = .idle → s.host = .command w :: rest →
    ∃ t, step s = .next t ∧ t.host = rest ∧
      ((t.activity = .idle ∧ ∃ r, t.rsp = some r) ∨
        (∃ n, decode w = .ok (.generate n) ∧ s.seeded = true ∧ t.StillGenerating n))

/-! ## `prng_state_transformer` -/

/-- Stated, R80, R84: `STEP x` responds `step(x)` and touches nothing else: half of an even operand XORed with `K`; for an odd
one the exact `3 × x + 1`, which does not wrap, modulo 2^64 − 59. Its word is `0x4 ++ x`, legal for every `x`. -/
def Obligations.StepRespondsTheStateTransform : Prop :=
  ∀ (x : Word) (s : State), decode ((4 : Nibble) ++ x) = .ok (.step x) ∧
    ∃ d : Word, exec (.step x) s = .next { s with rsp := some ⟨okWord d, none⟩ } ∧
      (x.toNat % 2 = 0 → d.toNat = Nat.xor (x.toNat / 2) 0x5555555555555555) ∧
      (x.toNat % 2 = 1 → d.toNat = (3 * x.toNat + 1) % (2 ^ 64 - 59))

/-- Derived (spec/40_state_transformer.md sections 1 and 3, where R81, R82 and R86 are marked derived): the even branch bit by
bit, with bit 63 clear, and as a rotation by 1 XORed with `K`; the odd branch is below `M`, its quotient is 0 to 3, and 3
exactly for operands of at least `M`, where `step(M + d)` is `3 × d + 1`; `step` is not injective. -/
def Obligations.TransformBranchesHaveTheirRanges : Prop :=
  (∀ s : Word, s.getLsbD 0 = false →
    (transform s).toNat < 2 ^ 63 ∧ s >>> 1 = rotr64 s 1 ∧ transform s = rotr64 s 1 ^^^ 0x5555555555555555 ∧
    (transform s).getLsbD 63 = false ∧ (transform s).getLsbD 0 = !s.getLsbD 1 ∧
    ∀ i, i ≤ 62 → (transform s).getLsbD i = (s.getLsbD (i + 1) ^^ (i % 2 == 0))) ∧
  (∀ s : Word, s.getLsbD 0 = true →
    (transform s).toNat < 2 ^ 64 - 59 ∧ (3 * s.toNat + 1) / (2 ^ 64 - 59) ≤ 3 ∧
    ((3 * s.toNat + 1) / (2 ^ 64 - 59) = 3 ↔ 2 ^ 64 - 59 ≤ s.toNat) ∧
    ∀ d, s.toNat = 2 ^ 64 - 59 + d → (transform s).toNat = 3 * d + 1) ∧
  transform 1 = 4 ∧ transform 0xAAAAAAAAAAAAAAA2 = 4

/-! ## `rotator_64bit_right3` -/

/-- Stated, R90, R93: `ROTR3 x` responds the rotation of `x` right by 3, bit by bit, and touches nothing else. Its word is
`0x5 ++ x`, legal for every `x`. -/
def Obligations.Rotr3RespondsTheRotation : Prop :=
  ∀ (x : Word) (s : State), decode ((5 : Nibble) ++ x) = .ok (.rotr3 x) ∧
    ∃ d : Word, exec (.rotr3 x) s = .next { s with rsp := some ⟨okWord d, none⟩ } ∧
      d = (x >>> 3) ||| (x <<< 61) ∧ (x >>> 3) &&& (x <<< 61) = 0 ∧
      d = x.extractLsb' 0 3 ++ x.extractLsb' 3 61 ∧ d = rotr64 x 3 ∧
      ∀ i, i ≤ 63 → d.getLsbD i = x.getLsbD ((i + 3) % 64)

/-- Stated, R91: `rotr3` is a bijection, inverted by the left rotation by 3 on both sides. -/
def Obligations.Rotr3IsInvertible : Prop :=
  ∀ x : Word, rotl64 (rotr3 x) 3 = x ∧ rotr3 (rotl64 x 3) = x

/-- Stated, R92: `rotr3` preserves the number of 1 bits, fixes 0 and all ones, commutes with the bitwise operations, moves the
parity and the low nibble as said, and composes 64 times to the identity. -/
def Obligations.Rotr3Laws : Prop :=
  (∀ x : Word, (Finset.univ.filter fun i : Fin 64 => (rotr3 x).getLsbD i = true).card =
    (Finset.univ.filter fun i : Fin 64 => x.getLsbD i = true).card) ∧
  rotr3 0 = 0 ∧ rotr3 0xFFFFFFFFFFFFFFFF = 0xFFFFFFFFFFFFFFFF ∧
  (∀ a b : Word, rotr3 (a ^^^ b) = rotr3 a ^^^ rotr3 b ∧ rotr3 (a &&& b) = rotr3 a &&& rotr3 b ∧
    rotr3 (a ||| b) = rotr3 a ||| rotr3 b) ∧
  (∀ x : Word, (rotr3 x).getLsbD 0 = x.getLsbD 3 ∧ lowNibble (rotr3 x) = x.extractLsb' 3 4) ∧
  ∀ x : Word, rotr3^[64] x = x

/-! ## `sbox_nibble_perm` and the draw -/

/-- Stated, R100, R101, R106: `EXTRACT x` responds bit 0 of the table entry its low nibble selects, in both modes, seeded
or not, and touches nothing else; bits 63 to 4 of `x` have no effect; over the sixteen operands 0 to 15 exactly eight
respond 1. Its word is `0x6 ++ x`, legal for every `x`. -/
def Obligations.ExtractReadsTheTableByTheLowNibble : Prop :=
  (∀ (x : Word) (s : State), decode ((6 : Nibble) ++ x) = .ok (.extract x) ∧
    ∃ d : Word, exec (.extract x) s = .next { s with rsp := some ⟨okWord d, none⟩ } ∧
      d.toNat = ((Config.sbox (x.extractLsb' 0 4)).getLsbD 0).toNat ∧
      exec (.extract (x &&& 0xF)) s = exec (.extract x) s) ∧
  ∃ ones : Finset Nibble, ones.card = 8 ∧ ∀ (n : Nibble) (s : State),
    exec (.extract (nibbleWord n)) s = .next { s with rsp := some ⟨okWord (if n ∈ ones then 1 else 0), none⟩ }

/-- Stated, R103: `SBOXRD idx` responds the entry, zero-extended, and touches nothing else; over the sixteen indices every
value 0 to 15 is responded by exactly one; a word whose `arg[63:4]` is not 0 raises `IllegalCommand`. -/
def Obligations.SboxrdRespondsTheEntry : Prop :=
  ∀ s : State,
    (∀ idx : Nibble, decode ((9 : Nibble) ++ BitVec.ofNat 64 idx.toNat) = .ok (.sboxrd idx) ∧
      exec (.sboxrd idx) s =
        .next { s with rsp := some ⟨okWord (BitVec.ofNat 64 (Config.sbox idx).toNat), none⟩ }) ∧
    (∀ v : Nat, v < 16 → ∃! idx : Nibble,
      exec (.sboxrd idx) s = .next { s with rsp := some ⟨okWord (BitVec.ofNat 64 v), none⟩ }) ∧
    ∀ arg : Word, 16 ≤ arg.toNat → runWord ((9 : Nibble) ++ arg) s = .next (raiseFault .illegalCommand s)

/-- Derived (spec/10_state.md section 6 and spec/42_substitutor.md section 3, where the spec derives it from the bijection):
whatever the table, exactly eight of the sixteen nibbles extract to 1. -/
def Obligations.ExactlyEightNibblesExtractToOne : Prop :=
  ∀ sbox : SBox, (Finset.univ.filter fun n : Nibble => extract sbox (nibbleWord n) = true).card = 8

/-- Derived (spec/42_substitutor.md section 3; the bit of the simplified mode is the spec's own reading, decision D4, log entry
11): `DRAW` on a seeded core makes `T(State)` the new `State`, responds the raw bit of the mode, which the spec gives as
`L[step(s)[6:3]]` and `step(s)[3]`, and touches nothing else. -/
def Obligations.DrawAdvancesStateAndRespondsTheRawBit : Prop :=
  ∀ (s : State) (v : Word), s.state = .value v →
    ∃ b : Bit, exec .draw s =
        .next { s with state := .value (rotr3 (transform v)), rsp := some ⟨okWord (bitWord b), none⟩ } ∧
      (s.mode = .canonical → b = (Config.sbox ((transform v).extractLsb' 3 4)).getLsbD 0) ∧
      (s.mode = .simplified → b = (transform v).getLsbD 3)

/-! ## System operations -/

/-- Stated, R150: `LOADSEED seed` stores the seed unreduced, sets `SEEDED`, clears the sticky flags, keeps `MODE` and everything
else, and responds 0, from every state and for every seed. -/
def Obligations.LoadseedBuildsAnInstance : Prop :=
  ∀ (seed : Word) (s : State), decode ((0 : Nibble) ++ seed) = .ok (.loadseed seed) ∧
    ∃ t, exec (.loadseed seed) s = .next t ∧ t.seeded = true ∧
      t = { s with state := .value seed, xh := false, ill := false, ns := false, rsp := some ⟨okWord 0, none⟩ }

/-- Stated, R152: `SETMODE mode` writes `CTRL.MODE`, touches nothing else and responds 0, seeded or not; a word whose
`arg[63:1]` is not 0 raises `IllegalCommand`. -/
def Obligations.SetmodeWritesTheMode : Prop :=
  ∀ s : State,
    (∀ mode : Mode, decode ((1 : Nibble) ++ BitVec.ofNat 64 mode.bit.toNat) = .ok (.setmode mode) ∧
      exec (.setmode mode) s = .next { s with mode := mode, rsp := some ⟨okWord 0, none⟩ }) ∧
    ∀ arg : Word, 2 ≤ arg.toNat → runWord ((1 : Nibble) ++ arg) s = .next (raiseFault .illegalCommand s)

/-- Stated, R153: `RDSTATE` on a seeded core responds `State` and touches nothing else; a word whose `arg` is not 0 raises
`IllegalCommand`, and with `arg` 0 an unseeded core raises `NotSeeded`. -/
def Obligations.RdstateRespondsTheState : Prop :=
  ∀ s : State,
    (∀ v, s.state = .value v → exec .rdstate s = .next { s with rsp := some ⟨okWord v, none⟩ }) ∧
    (s.state = .noValue → runWord ((7 : Nibble) ++ (0 : Word)) s = .next (raiseFault .notSeeded s)) ∧
    ∀ arg : Word, arg ≠ 0 → runWord ((7 : Nibble) ++ arg) s = .next (raiseFault .illegalCommand s)

/-- Stated, R154: `RDSTATUS` responds the five bits at their places and 0 above them, seeded or not, and clears nothing; a word
whose `arg` is not 0 raises `IllegalCommand`. -/
def Obligations.RdstatusRespondsTheFiveBits : Prop :=
  ∀ s : State,
    (∃ d : Word, exec .rdstatus s = .next { s with rsp := some ⟨okWord d, none⟩ } ∧
      (d.getLsbD 0 = true ↔ ∃ v, s.state = .value v) ∧ (d.getLsbD 1 = true ↔ s.mode = .simplified) ∧
      d.getLsbD 2 = s.xh ∧ d.getLsbD 3 = s.ill ∧ d.getLsbD 4 = s.ns ∧ ∀ i, 5 ≤ i → d.getLsbD i = false) ∧
    ∀ arg : Word, arg ≠ 0 → runWord ((8 : Nibble) ++ arg) s = .next (raiseFault .illegalCommand s)

/-! ## `VNPAIR` -/

/-- Stated, R120, R121: `VNPAIR b1, b2` responds the pair decision (bit 1 `emit`, bit 0 `out`) by the spec's table and touches
nothing else; a produced bit is the first bit of its pair; a word whose `arg[63:2]` is not 0 raises `IllegalCommand`. -/
def Obligations.VnpairRespondsTheDecision : Prop :=
  (∀ (b1 b2 : Bit) (s : State),
    decode ((0xA : Nibble) ++ BitVec.ofNat 64 (2 * b2.toNat + b1.toNat)) = .ok (.vnpair b1 b2) ∧
    exec (.vnpair b1 b2) s = .next { s with rsp := some ⟨okWord (match b1, b2 with
      | false, false => 0
      | false, true => 2
      | true, false => 3
      | true, true => 0), none⟩ }) ∧
  (∀ b1 b2 : Bit, (vnpair b1 b2).1 = (b1 ^^ b2) ∧ (vnpair b1 b2).2 = (b1 && !b2) ∧
    ((vnpair b1 b2).1 = true → (vnpair b1 b2).2 = b1)) ∧
  ∀ (arg : Word) (s : State), 4 ≤ arg.toNat →
    runWord ((0xA : Nibble) ++ arg) s = .next (raiseFault .illegalCommand s)

/-! ## Faults and flags -/

/-- Stated, R173: on an unseeded idle core `DRAW`, `GENERATE` (of every length, 0 included) and `RDSTATE` raise `NotSeeded`: only
`STATUS.NS` is set, no draw is made and `State` stays without a value. The other operations never raise it. -/
def Obligations.OnlyStateReadersRaiseNotSeeded : Prop :=
  (∀ s : State, s.Inv → s.state = .noValue → ∀ n : Word, ∀ i ∈ [Instr.draw, .generate n, .rdstate],
    exec i s = .next { s with ns := true, rsp := some ⟨faultWord .notSeeded, none⟩ }) ∧
  ∀ (s : State) (i : Instr), i ≠ .draw → i ≠ .rdstate → (∀ n, i ≠ .generate n) →
    ∃ t r, exec i s = .next t ∧ t.rsp = some r ∧ r.isFault = false

/-- Derived (spec/10_state.md section 2): the five operations on an operand never read or write the core: the response depends
on the operand alone, and nothing but the response port changes. -/
def Obligations.OperandOperationsIgnoreTheCore : Prop :=
  ∀ i : Instr, ((∃ x, i = .step x) ∨ (∃ x, i = .rotr3 x) ∨ (∃ x, i = .extract x) ∨ (∃ n, i = .sboxrd n) ∨
      (∃ b1 b2, i = .vnpair b1 b2)) →
    ∃ d : Word, ∀ s : State, exec i s = .next { s with rsp := some ⟨okWord d, none⟩ }

/-- Derived (spec/10_state.md section 5): a sticky flag once set stays set through every step but a reset and the acceptance of a
`LOADSEED`. -/
def Obligations.StickyFlagsStaySet : Prop :=
  ∀ s t : State, step s = .next t → (∀ rest, s.host ≠ .reset :: rest) →
    (∀ w rest seed, s.activity = .idle → s.host = .command w :: rest → decode w ≠ .ok (.loadseed seed)) →
    (s.xh = true → t.xh = true) ∧ (s.ill = true → t.ill = true) ∧ (s.ns = true → t.ns = true)

/-- Derived (spec/60_exceptions.md section 3): the sticky flags gate nothing: two machines that differ in them only do the same
step, but for those flags, unless the step accepts an `RDSTATUS`, which reports them. -/
def Obligations.StickyFlagsGateNothing : Prop :=
  ∀ (s t : State) (x i n : Bit), step s = .next t →
    (∀ w rest, s.activity = .idle → s.host = .command w :: rest → decode w ≠ .ok .rdstatus) →
    ∃ u, step { s with xh := x, ill := i, ns := n } = .next u ∧ { t with xh := u.xh, ill := u.ill, ns := u.ns } = u

/-- Derived (spec/10_state.md section 5): `CTRL.MODE` changes by a reset or by an accepted `SETMODE` only, and then to the mode
it names. -/
def Obligations.ModeChangesBySetmodeOrResetOnly : Prop :=
  ∀ s t : State, step s = .next t → t.mode ≠ s.mode →
    (∃ rest, s.host = .reset :: rest ∧ t.mode = .canonical) ∨
    ∃ w rest m, s.activity = .idle ∧ s.host = .command w :: rest ∧ decode w = .ok (.setmode m) ∧ t.mode = m

/-- Derived (spec/10_state.md section 2; spec/42_substitutor.md section 3): `State` is written by a reset, by an accepted `LOADSEED`,
and by single draws of an accepted `DRAW` or of a `GENERATE` in progress, and by nothing else; a draw makes `T` of it. -/
def Obligations.StateIsWrittenBySeedAndDrawsOnly : Prop :=
  ∀ s t : State, step s = .next t → t.state ≠ s.state →
    (∃ rest, s.host = .reset :: rest ∧ t.state = .noValue) ∨
    (∃ w rest seed, s.activity = .idle ∧ s.host = .command w :: rest ∧ decode w = .ok (.loadseed seed) ∧
      t.state = .value seed) ∨
    ∃ v, s.state = .value v ∧ t.state = .value (rotr3 (transform v)) ∧
      ((∃ w rest, s.activity = .idle ∧ s.host = .command w :: rest ∧ decode w = .ok .draw) ∨
        ∃ n, s.activity = .generating n)

/-- Derived (spec/10_state.md section 7; spec/93_implementation_defined.md U7; the value at reset is the model's choice, log entry
4): between pairs nothing depends on the latch `b1`: with another value in it the step does the same, but for the latch
itself, and not even for that when the step begins a pair. -/
def Obligations.LatchIsWrittenBeforeItIsRead : Prop :=
  ∀ (s t : State) (b : Bit), s.phase = .first → step s = .next t →
    ∃ u, step { s with b1 := b } = .next u ∧ { t with b1 := u.b1 } = u ∧ (t.phase = .second → u = t)

/-! ## The invariant -/

/-- Derived (spec/70_reset_and_hazards.md section 1; the invariant is the model's): the invariant holds at reset. -/
def Obligations.InvariantHoldsAtReset : Prop := State.reset.Inv

/-- Derived (spec/10_state.md section 7, spec/43_keygenerator.md sections 2 to 6): every step keeps the invariant: an idle
sequencer holds no control state, no response shows while a command executes, the counts of a `GENERATE` fit its phase, its
mode and its budget, and every response has the layout. -/
def Obligations.EveryStepKeepsTheInvariant : Prop :=
  ∀ s t : State, s.Inv → step s = .next t → t.Inv

/-- Derived (spec/60_exceptions.md sections 1 and 6): from a state of the invariant the machine always goes on: no word the host
can present, no fault of the hardware and no reset stops it. -/
def Obligations.MachineNeverStops : Prop :=
  ∀ s : State, s.Inv → ∃ t, step s = .next t

/-! ## `GENERATE` -/

/-- Derived (spec/43_keygenerator.md section 2, R124; that the latch `b1` keeps its value when the sequencer goes idle, in
the first two rows, is the model's choice, log entry 4): the four rows of the canonical sequencer's table, for every
choice of the open parameters. -/
def Obligations.SequencerFollowsItsTable : Prop :=
  ∀ (P : Params) (s : State) (n v : Word),
    s.activity = .generating n → s.mode = .canonical → s.state = .value v →
    (s.phase = .first → s.out.length = n.toNat →
      advanceWith P s = .next { s with activity := .idle, out := [], draws := 0,
                                       rsp := some ⟨okWord 0, some s.out⟩ }) ∧
    (s.phase = .first → s.out.length < n.toNat → ∀ m h, P.budgetMult = .finite m h → m * n.toNat < s.draws + 2 →
      advanceWith P s = .next { s with activity := .idle, out := [], draws := 0, xh := true,
                                       rsp := some ⟨faultWord .extractionExhausted, none⟩ }) ∧
    (s.phase = .first → s.out.length < n.toNat →
      (∀ m h, P.budgetMult = .finite m h → s.draws + 2 ≤ m * n.toNat) →
      advanceWith P s = .next { s with state := .value (drawMap v), b1 := extract P.sbox (drawMap v),
                                       draws := s.draws + 1, phase := .second }) ∧
    (s.phase = .second →
      advanceWith P s = .next { s with state := .value (drawMap v), draws := s.draws + 1, phase := .first,
                                       out := if s.b1 = extract P.sbox (drawMap v) then s.out else s.out ++ [s.b1] })

/-- Derived (spec/43_keygenerator.md sections 2 to 5; one transition a step, log entry 2; the model's choices are that a
command presented meanwhile waits, log entry 1, and that the latch `b1` is kept, log entry 4): the filter of length 0
returns the empty sequence without a draw, for every source and every budget; and `GENERATE 0` on a seeded core responds
so in both modes, with `State` unchanged. -/
def Obligations.GenerateZeroDrawsNothing : Prop :=
  (∀ (σ : Type) (src : σ → σ × Bit) (q : σ) (budget : Option Nat) (fuel : Nat),
    vnFilter src q 0 budget (fuel + 1) = some (.done q [] 0)) ∧
  ∀ (s : State) (v : Word), s.state = .value v → HostQuiet s.host →
    ∃ t, exec (.generate 0) s = .next t ∧ step t = .next (s.finished v ⟨okWord 0, some []⟩)

/-- Derived (spec/43_keygenerator.md section 4; the bit of the simplified mode is the spec's own reading, decision D4, log
entry 11; one draw a step, log entry 2; the model's choices are that a command presented meanwhile waits, log entry 1, and
that the latch `b1` is kept, log entry 4): a simplified `GENERATE n` on a seeded core starts, and after `n + 1` steps has
responded the bits of exactly `n` draws: bit `i` is bit 0 of `T^(i+1)` of the starting `State`. It ends for every `n`,
whatever the budget. -/
def Obligations.SimplifiedGenerateEmitsEveryRawBit : Prop :=
  ∀ (s : State) (v n : Word), s.state = .value v → s.mode = .simplified → HostQuiet s.host →
    ∃ t, exec (.generate n) s = .next t ∧
      Sys2Proof.core.run (n.toNat + 1) t = .next (s.finished (drawMap^[n.toNat] v)
        ⟨okWord 0, some ((List.range n.toNat).map fun i => (drawMap^[i + 1] v).getLsbD 0)⟩)

/-- Derived (spec/43_keygenerator.md section 3, R128; one draw a step, log entry 2): a canonical `GENERATE` on a seeded
core runs `VNFilter` over the core's own draw path: where the filter is done, the response is its `OUT` and `State` is the
source's last state; where it is exhausted, `STATUS.XH` is set, the response is `ExtractionExhausted`, and `State` is
likewise left where the draws have taken it. The core has responded `draws + 1` steps after the command has started. -/
def Obligations.CanonicalGenerateRunsTheFilter : Prop :=
  ∀ (P : Params) (s : State) (v n : Word) (fuel : Nat), s.state = .value v → s.mode = .canonical →
    ∃ t, exec (.generate n) s = .next t ∧
      (∀ u out draws,
        vnFilter (rawDraw P .canonical) v n.toNat (drawBudget P.budgetMult n.toNat) fuel = some (.done u out draws) →
        u = drawMap^[draws] v ∧ draws % 2 = 0 ∧ 2 * n.toNat ≤ draws ∧
        ∃ b, runCore P (draws + 1) t = .next ({ s with b1 := b }.finished u ⟨okWord 0, some out⟩)) ∧
      (∀ u draws,
        vnFilter (rawDraw P .canonical) v n.toNat (drawBudget P.budgetMult n.toNat) fuel = some (.exhausted u draws) →
        u = drawMap^[draws] v ∧
        ∃ b, runCore P (draws + 1) t =
          .next ({ s with b1 := b, xh := true }.finished u ⟨faultWord .extractionExhausted, none⟩))

/-- Derived (spec/43_keygenerator.md section 6, spec/93_implementation_defined.md U10): where `VNFilter` never returns, the command
never responds: after any number of moves the core still generates and the port is empty. -/
def Obligations.GenerateHangsWhereTheFilterDoes : Prop :=
  ∀ (P : Params) (s : State) (v n : Word), s.state = .value v → s.mode = .canonical → s.rsp = none →
    (∀ fuel, vnFilter (rawDraw P .canonical) v n.toNat (drawBudget P.budgetMult n.toNat) fuel = none) →
    ∃ t, exec (.generate n) s = .next t ∧ ∀ k, ∃ u, runCore P k t = .next u ∧ u.StillGenerating n

/-- Derived (spec/43_keygenerator.md section 2; spec/70_reset_and_hazards.md section 3): with a finite budget the filter returns
within half the budget's number of pairs, over every source. -/
def Obligations.FiniteBudgetMakesTheFilterEnd : Prop :=
  ∀ (σ : Type) (src : σ → σ × Bit) (q : σ) (n budget : Nat),
    ∃ e, vnFilter src q n (some budget) (budget / 2 + 1) = some e

/-- Derived (spec/43_keygenerator.md sections 2, 3 and 6, where R133 is marked derived): the counts of a filter that has ended,
over every source. Done: exactly `n` bits, an even number of draws, at least `2 × n` and within the budget, and for `n > 0` the
last pair is heterogeneous. Exhausted: an even number of draws, within the budget, with no room for another pair. -/
def Obligations.FilterCounts : Prop :=
  ∀ (σ : Type) (src : σ → σ × Bit) (q : σ) (n : Nat) (budget : Option Nat) (fuel : Nat),
    (∀ u out draws, vnFilter src q n budget fuel = some (.done u out draws) →
      out.length = n ∧ draws % 2 = 0 ∧ 2 * n ≤ draws ∧ withinBudget budget draws ∧
      u = (fun x => (src x).1)^[draws] q ∧
      (0 < n → ∃ b, out.getLast? = some b ∧ (src ((fun x => (src x).1)^[draws - 2] q)).2 = b ∧
        (src ((fun x => (src x).1)^[draws - 1] q)).2 = !b)) ∧
    (∀ u draws, vnFilter src q n budget fuel = some (.exhausted u draws) →
      draws % 2 = 0 ∧ u = (fun x => (src x).1)^[draws] q ∧ ∃ b, budget = some b ∧ draws ≤ b ∧ b < draws + 2)

/-- Derived (spec/60_exceptions.md section 2): `ExtractionExhausted` cannot be raised with no bound, in simplified mode, or for
length 0. -/
def Obligations.ExhaustionNeedsABoundModeZeroAndALength : Prop :=
  ∀ (P : Params) (s t : State) (n : Word), s.activity = .generating n → s.rsp = none → s.out.length ≤ n.toNat →
    (P.budgetMult = .unbounded ∨ s.mode = .simplified ∨ n = 0) → advanceWith P s = .next t →
    t.xh = s.xh ∧ t.rsp ≠ some ⟨faultWord .extractionExhausted, none⟩

/-- Derived (spec/43_keygenerator.md section 6): a step that ends a `GENERATE` in progress delivers exactly `length` bits, or a
fault and no bit. -/
def Obligations.NoPartialResults : Prop :=
  ∀ (s t : State) (n : Word), s.Inv → s.activity = .generating n → (∀ rest, s.host ≠ .reset :: rest) →
    step s = .next t →
    t.StillGenerating n ∨
    (t.activity = .idle ∧ ∃ r, t.rsp = some r ∧
      ((r.isFault = false ∧ ∃ bits, r.bits = some bits ∧ bits.length = n.toNat) ∨
        (r = ⟨faultWord .extractionExhausted, none⟩ ∧ s.mode = .canonical ∧ t.xh = true)))

/-- Derived (spec/43_keygenerator.md section 6, where R131 is marked derived; in simplified mode one draw a step, log
entry 2, and that the latch `b1` is kept is the model's choice, log entry 4): continuation: the bits of a filter of length
`a` and of the next of length `b` from where it left are those of one filter of length `a + b`, and so are the last states
and the draws, whatever the three budgets, provided none is exhausted; and the same of two simplified `GENERATE`s and one,
with no proviso. -/
def Obligations.GenerationContinues : Prop :=
  (∀ (σ : Type) (src : σ → σ × Bit) (q q1 q2 q3 : σ) (a b d1 d2 d3 f1 f2 f3 : Nat) (o1 o2 o3 : List Bit)
    (B1 B2 B3 : Option Nat),
    vnFilter src q a B1 f1 = some (.done q1 o1 d1) → vnFilter src q1 b B2 f2 = some (.done q2 o2 d2) →
    vnFilter src q (a + b) B3 f3 = some (.done q3 o3 d3) →
    q3 = q2 ∧ o3 = o1 ++ o2 ∧ d3 = d1 + d2) ∧
  ∀ (P : Params) (s : State) (v a b : Word),
    s.state = .value v → s.mode = .simplified → a.toNat + b.toNat < 2 ^ 64 →
    ∃ (t1 t2 t3 u1 u2 : State) (w1 w2 : Word) (o1 o2 : List Bit),
      exec (.generate a) s = .next t1 ∧ runCore P (a.toNat + 1) t1 = .next u1 ∧
      u1 = s.finished w1 ⟨okWord 0, some o1⟩ ∧ o1.length = a.toNat ∧
      exec (.generate b) u1 = .next t2 ∧ runCore P (b.toNat + 1) t2 = .next u2 ∧
      u2 = s.finished w2 ⟨okWord 0, some o2⟩ ∧ o2.length = b.toNat ∧
      exec (.generate (a + b)) s = .next t3 ∧
      runCore P (a.toNat + b.toNat + 1) t3 = .next (s.finished w2 ⟨okWord 0, some (o1 ++ o2)⟩)

/-- Derived (spec/43_keygenerator.md section 6, R136): the filter on RSU's synthetic sources, a source being a position in a
repeating pattern: 0, 1 gives zeros in `2n` draws; 0, 0, 1, 0 gives ones in `4n` draws; a constant source is exhausted by every
finite budget and never returns without one. -/
def Obligations.FilterOnSyntheticSources : Prop :=
  ∀ n : Nat,
    (∀ budget, withinBudget budget (2 * n) →
      vnFilter (fun k : Nat => (k + 1, k % 2 == 1)) 0 n budget (n + 1) =
        some (.done (2 * n) (List.replicate n false) (2 * n))) ∧
    (∀ budget, withinBudget budget (4 * n) →
      vnFilter (fun k : Nat => (k + 1, k % 4 == 2)) 0 n budget (2 * n + 1) =
        some (.done (4 * n) (List.replicate n true) (4 * n))) ∧
    (0 < n → ∀ b : Bit,
      (∀ budget, vnFilter (fun k : Nat => (k + 1, b)) 0 n (some budget) (budget / 2 + 1) =
        some (.exhausted (2 * (budget / 2)) (2 * (budget / 2)))) ∧
      ∀ fuel, vnFilter (fun k : Nat => (k + 1, b)) 0 n none fuel = none)

/-- Derived (spec/20_memory.md section 2): the number an output sequence denotes, packed bit by bit, has the first emitted bit
most significant. -/
def Obligations.OutputPacksFirstBitHighest : Prop :=
  ∀ bits : List Bit,
    packBits bits = ((List.range bits.length).map fun i =>
      (bits.getD i false).toNat * 2 ^ (bits.length - 1 - i)).sum

/-- Derived (spec/30_encoding.md section 7): the two commands of `INIT seed, mode`, presented to an idle core, leave a fresh
instance in that mode in two steps. -/
def Obligations.InitLeavesAFreshInstance : Prop :=
  ∀ (s : State) (seed : Word) (mode : Mode), s.activity = .idle →
    s.host = presentProgram (pseudoInit seed mode) →
    Sys2Proof.core.run 2 s = .next { s with state := .value seed, mode := mode, xh := false, ill := false,
                                            ns := false, rsp := some ⟨okWord 0, none⟩, host := [] }

/-! ## The trap set -/

/-- Derived (spec/70_reset_and_hazards.md section 3, R208 (a) and (b), which the spec marks as its own): on an even state the draw
map rotates by 4 and XORs `C`; the trap set has even states only and is closed under it. -/
def Obligations.TrapSetIsClosed : Prop :=
  (∀ v : Word, v.getLsbD 0 = false → drawMap v = rotr64 v 4 ^^^ trapMask) ∧
  ∀ v : Word, InTrapSet v → v.getLsbD 0 = false ∧ InTrapSet (drawMap v)

/-- Derived (spec/70_reset_and_hazards.md section 3, R208 (c) and (d), which the spec marks as its own): the states of an orbit in
the trap set, its period, and the nibbles its draws read. -/
def Obligations.TrapSetOrbit : Prop :=
  ∀ v : Word, InTrapSet v →
    (∀ k, k ≤ 15 → 0 < k → drawMap^[k] v = rotr64 v (4 * k) ^^^ (if k % 2 = 1 then trapMask else 0)) ∧
    drawMap^[16] v = v ∧
    ∀ k, lowNibble (drawMap^[k] v) = v.extractLsb' (4 * (k % 16)) 4 ^^^ (if k % 2 = 1 then 0xA else 0) ∧
      (lowNibble (drawMap^[k] v)).getLsbD 0 = false

/-- Derived (spec/70_reset_and_hazards.md section 3, R208 (e), which the spec marks as its own): the trap set is exactly the set of
states from which the first sixteen states of the orbit are even. -/
def Obligations.TrapSetIsWhereSixteenStatesAreEven : Prop :=
  ∀ v : Word, InTrapSet v ↔ ∀ k, k ≤ 15 → (drawMap^[k] v).getLsbD 0 = false

/-- Derived (spec/70_reset_and_hazards.md section 3, R208 (f), which the spec marks as its own): once `State` is in the trap set,
every step leaves it there but a reset and an accepted `LOADSEED`. -/
def Obligations.TrapSetIsNeverLeft : Prop :=
  ∀ (s t : State) (v : Word), s.state = .value v → InTrapSet v → step s = .next t →
    (∀ rest, s.host ≠ .reset :: rest) →
    (∀ w rest seed, s.activity = .idle → s.host = .command w :: rest → decode w ≠ .ok (.loadseed seed)) →
    ∃ u, t.state = .value u ∧ InTrapSet u

/-- Derived (spec/70_reset_and_hazards.md section 3, R209 (a), which the spec marks as its own): the draw map has exactly the eight
even fixed points listed, all in the trap set, and 0x1AC5701AC5701AC5 reaches one of them in one draw. -/
def Obligations.EvenFixedPointsOfTheDraw : Prop :=
  (∀ v : Word, v.getLsbD 0 = false → (drawMap v = v ↔
    v ∈ [0x0A0A0A0A0A0A0A0A, 0x2828282828282828, 0x4E4E4E4E4E4E4E4E, 0x6C6C6C6C6C6C6C6C,
      0x8282828282828282, 0xA0A0A0A0A0A0A0A0, 0xC6C6C6C6C6C6C6C6, (0xE4E4E4E4E4E4E4E4 : Word)])) ∧
  (∀ v : Word, v.getLsbD 0 = false → drawMap v = v → InTrapSet v) ∧
  drawMap 0x1AC5701AC5701AC5 = 0x0A0A0A0A0A0A0A0A

/-- Derived (spec/70_reset_and_hazards.md section 3, R209 (a), which the spec marks as its own; spec/90_conflicts.md C2;
one draw a step, log entry 2): at a fixed point of the draw map no canonical `GENERATE` of a length above 0 produces a
bit, whatever the table: with a finite multiplier `m` it still generates after `2 × floor(m × n / 2)` draws and every
number before, and then ends in `ExtractionExhausted` with `State` where it was; with no bound it never responds. -/
def Obligations.FixedPointsNeverYieldABit : Prop :=
  ∀ (P : Params) (s : State) (v n : Word), s.state = .value v → drawMap v = v → s.mode = .canonical → s.rsp = none →
    n ≠ 0 →
    ∃ t, exec (.generate n) s = .next t ∧
      (∀ m h, P.budgetMult = .finite m h →
        (∀ k, k ≤ 2 * (m * n.toNat / 2) → ∃ u, runCore P k t = .next u ∧ u.StillGenerating n) ∧
        ∃ b, runCore P (2 * (m * n.toNat / 2) + 1) t =
          .next ({ s with b1 := b, xh := true }.finished v ⟨faultWord .extractionExhausted, none⟩)) ∧
      (P.budgetMult = .unbounded → ∀ k, ∃ u, runCore P k t = .next u ∧ u.StillGenerating n)

/-- Derived (spec/70_reset_and_hazards.md section 3, R209 (d), which the spec marks as its own; the bit of the simplified
mode is decision D4, log entry 11; one draw a step, log entry 2; the model's choices are that a command presented
meanwhile waits, log entry 1, and that the latch `b1` is kept, log entry 4): from a state of the trap set a simplified
`GENERATE` responds zeros only. -/
def Obligations.TrapSetGivesZerosInSimplifiedMode : Prop :=
  ∀ (s : State) (v n : Word), s.state = .value v → InTrapSet v → s.mode = .simplified → HostQuiet s.host →
    ∃ t, exec (.generate n) s = .next t ∧
      Sys2Proof.core.run (n.toNat + 1) t =
        .next (s.finished (drawMap^[n.toNat] v) ⟨okWord 0, some (List.replicate n.toNat false)⟩)
end

