-- ==== Sys2Proof/Laws/Codec.lean ====
section
/-!
SUPPORT. The fields of a command word, strict decoding of reserved fields, and the mode bit.
-/

namespace Sys2Proof

/-- A bit of a command word is a bit of its `arg` below 64 and of its `op` above. -/
theorem command_getLsbD (op : Nibble) (arg : Word) (i : Nat) :
    BitVec.getLsbD (w := 68) (op ++ arg) i = if i < 64 then arg.getLsbD i else op.getLsbD (i - 64) :=
  BitVec.getLsbD_append

@[simp] theorem opField_append (op : Nibble) (arg : Word) : opField (op ++ arg) = op := by
  apply BitVec.eq_of_getLsbD_eq
  intro i hi
  rw [opField, BitVec.getLsbD_extractLsb', command_getLsbD, if_neg (by omega), Nat.add_sub_cancel_left]
  simp [hi]

@[simp] theorem argField_append (op : Nibble) (arg : Word) : argField (op ++ arg) = arg := by
  apply BitVec.eq_of_getLsbD_eq
  intro i hi
  rw [argField, BitVec.getLsbD_extractLsb', command_getLsbD, if_pos (by omega), Nat.zero_add]
  simp [hi]

/-- Every command word is its `op` above its `arg`. -/
theorem word_eq_fields (w : CmdWord) : w = opField w ++ argField w := by
  apply BitVec.eq_of_getLsbD_eq
  intro i hi
  rw [command_getLsbD]
  split
  · simp [argField, *]
  · have h64 : 64 + (i - 64) = i := by omega
    have h4 : i - 64 < 4 := by omega
    rw [opField, BitVec.getLsbD_extractLsb', h64]
    simp [h4]

/-- Two command words are equal when their fields are. -/
theorem command_inj {op op' : Nibble} {arg arg' : Word} :
    (op ++ arg : CmdWord) = (op' ++ arg' : CmdWord) ↔ op = op' ∧ arg = arg' := by
  constructor
  · intro h
    exact ⟨by simpa using congrArg opField h, by simpa using congrArg argField h⟩
  · rintro ⟨rfl, rfl⟩
    rfl

/-- A row covers a word when it covers both fields. -/
theorem Row.covers_append {mop pop op : Nibble} {marg parg arg : Word} :
    (Row.mk (mop ++ marg : CmdWord) (pop ++ parg : CmdWord)).covers (op ++ arg) = true ↔
      op &&& mop = pop ∧ arg &&& marg = parg := by
  have h : ((op ++ arg : CmdWord) &&& (mop ++ marg : CmdWord)) = ((op &&& mop) ++ (arg &&& marg) : CmdWord) := by
    apply BitVec.eq_of_getLsbD_eq
    intro i hi
    rw [BitVec.getLsbD_and, command_getLsbD, command_getLsbD, command_getLsbD]
    split <;> rw [BitVec.getLsbD_and]
  rw [Row.covers, beq_iff_eq, h, command_inj]

theorem wellFormed_of_row {w : CmdWord} {r : Row} (h : r ∈ opcodeRows) (hw : r.covers w = true) : wellFormed w = true :=
  List.any_eq_true.2 ⟨r, h, hw⟩

@[simp] theorem whenZero_zero {n : Nat} (i : Instr) : whenZero 0#n i = .ok i := by
  simp [whenZero]

theorem whenZero_of_ne {n : Nat} {r : BitVec n} (h : r ≠ 0) (i : Instr) : whenZero r i = .error .reservedArg := by
  simp only [whenZero, if_neg h]

theorem whenZero_eq_ok {n : Nat} {r : BitVec n} {i j : Instr} : whenZero r i = .ok j ↔ r = 0 ∧ i = j := by
  by_cases h : r = 0
  · simp [whenZero, h]
  · simp only [whenZero_of_ne h, h, false_and, reduceCtorEq]

@[simp] theorem Mode.ofBit_bit (m : Mode) : Mode.ofBit m.bit = m := by cases m <;> rfl

@[simp] theorem Mode.bit_ofBit (b : Bit) : (Mode.ofBit b).bit = b := by cases b <;> rfl

/-- A reserved field above the low `k` bits is 0 exactly when the operand fits them. -/
theorem reserved_eq_zero_iff {k n : Nat} (hk : k + n = 64) (arg : Word) :
    arg.extractLsb' k n = 0 ↔ arg.toNat < 2 ^ k := by
  have h64 := arg.isLt
  rw [← BitVec.toNat_inj, BitVec.extractLsb'_toNat, Nat.shiftRight_eq_div_pow]
  have hlt : arg.toNat / 2 ^ k < 2 ^ n := by
    rw [Nat.div_lt_iff_lt_mul (by positivity), ← Nat.pow_add, Nat.add_comm, hk]; exact h64
  simp [Nat.mod_eq_of_lt hlt, Nat.div_eq_zero_iff]

end Sys2Proof
end

