-- ==== Sys2Proof/Laws/State.lean ====
section
/-!
SUPPORT. The fields of a state after each shared update: one lemma a field, so that no proof unfolds a record update.
-/

namespace Sys2Proof.Machine

variable (s : State)

/-! `respond`. -/

@[simp] theorem respond_state (d : Word) : (respond d s).state = s.state := rfl
@[simp] theorem respond_mode (d : Word) : (respond d s).mode = s.mode := rfl
@[simp] theorem respond_xh (d : Word) : (respond d s).xh = s.xh := rfl
@[simp] theorem respond_ill (d : Word) : (respond d s).ill = s.ill := rfl
@[simp] theorem respond_ns (d : Word) : (respond d s).ns = s.ns := rfl
@[simp] theorem respond_activity (d : Word) : (respond d s).activity = s.activity := rfl
@[simp] theorem respond_phase (d : Word) : (respond d s).phase = s.phase := rfl
@[simp] theorem respond_b1 (d : Word) : (respond d s).b1 = s.b1 := rfl
@[simp] theorem respond_draws (d : Word) : (respond d s).draws = s.draws := rfl
@[simp] theorem respond_out (d : Word) : (respond d s).out = s.out := rfl
@[simp] theorem respond_rsp (d : Word) : (respond d s).rsp = some ⟨okWord d, none⟩ := rfl
@[simp] theorem respond_host (d : Word) : (respond d s).host = s.host := rfl

/-! `respondBits`. -/

@[simp] theorem respondBits_state (bits : List Bit) : (respondBits bits s).state = s.state := rfl
@[simp] theorem respondBits_mode (bits : List Bit) : (respondBits bits s).mode = s.mode := rfl
@[simp] theorem respondBits_xh (bits : List Bit) : (respondBits bits s).xh = s.xh := rfl
@[simp] theorem respondBits_ill (bits : List Bit) : (respondBits bits s).ill = s.ill := rfl
@[simp] theorem respondBits_ns (bits : List Bit) : (respondBits bits s).ns = s.ns := rfl
@[simp] theorem respondBits_activity (bits : List Bit) : (respondBits bits s).activity = s.activity := rfl
@[simp] theorem respondBits_phase (bits : List Bit) : (respondBits bits s).phase = s.phase := rfl
@[simp] theorem respondBits_b1 (bits : List Bit) : (respondBits bits s).b1 = s.b1 := rfl
@[simp] theorem respondBits_draws (bits : List Bit) : (respondBits bits s).draws = s.draws := rfl
@[simp] theorem respondBits_out (bits : List Bit) : (respondBits bits s).out = s.out := rfl
@[simp] theorem respondBits_rsp (bits : List Bit) : (respondBits bits s).rsp = some ⟨okWord 0, some bits⟩ := rfl
@[simp] theorem respondBits_host (bits : List Bit) : (respondBits bits s).host = s.host := rfl

/-! `goIdle`. -/

@[simp] theorem goIdle_state : (goIdle s).state = s.state := rfl
@[simp] theorem goIdle_mode : (goIdle s).mode = s.mode := rfl
@[simp] theorem goIdle_xh : (goIdle s).xh = s.xh := rfl
@[simp] theorem goIdle_ill : (goIdle s).ill = s.ill := rfl
@[simp] theorem goIdle_ns : (goIdle s).ns = s.ns := rfl
@[simp] theorem goIdle_activity : (goIdle s).activity = .idle := rfl
@[simp] theorem goIdle_phase : (goIdle s).phase = .first := rfl
@[simp] theorem goIdle_b1 : (goIdle s).b1 = s.b1 := rfl
@[simp] theorem goIdle_draws : (goIdle s).draws = 0 := rfl
@[simp] theorem goIdle_out : (goIdle s).out = [] := rfl
@[simp] theorem goIdle_rsp : (goIdle s).rsp = s.rsp := rfl
@[simp] theorem goIdle_host : (goIdle s).host = s.host := rfl

/-! `writeState`. -/

@[simp] theorem writeState_state (v : Word) : (writeState v s).state = .value v := rfl
@[simp] theorem writeState_mode (v : Word) : (writeState v s).mode = s.mode := rfl
@[simp] theorem writeState_xh (v : Word) : (writeState v s).xh = s.xh := rfl
@[simp] theorem writeState_ill (v : Word) : (writeState v s).ill = s.ill := rfl
@[simp] theorem writeState_ns (v : Word) : (writeState v s).ns = s.ns := rfl
@[simp] theorem writeState_activity (v : Word) : (writeState v s).activity = s.activity := rfl
@[simp] theorem writeState_phase (v : Word) : (writeState v s).phase = s.phase := rfl
@[simp] theorem writeState_b1 (v : Word) : (writeState v s).b1 = s.b1 := rfl
@[simp] theorem writeState_draws (v : Word) : (writeState v s).draws = s.draws := rfl
@[simp] theorem writeState_out (v : Word) : (writeState v s).out = s.out := rfl
@[simp] theorem writeState_rsp (v : Word) : (writeState v s).rsp = s.rsp := rfl
@[simp] theorem writeState_host (v : Word) : (writeState v s).host = s.host := rfl

/-! `clearSticky`. -/

@[simp] theorem clearSticky_state : (s.clearSticky).state = s.state := rfl
@[simp] theorem clearSticky_mode : (s.clearSticky).mode = s.mode := rfl
@[simp] theorem clearSticky_xh : (s.clearSticky).xh = false := rfl
@[simp] theorem clearSticky_ill : (s.clearSticky).ill = false := rfl
@[simp] theorem clearSticky_ns : (s.clearSticky).ns = false := rfl
@[simp] theorem clearSticky_activity : (s.clearSticky).activity = s.activity := rfl
@[simp] theorem clearSticky_phase : (s.clearSticky).phase = s.phase := rfl
@[simp] theorem clearSticky_b1 : (s.clearSticky).b1 = s.b1 := rfl
@[simp] theorem clearSticky_draws : (s.clearSticky).draws = s.draws := rfl
@[simp] theorem clearSticky_out : (s.clearSticky).out = s.out := rfl
@[simp] theorem clearSticky_rsp : (s.clearSticky).rsp = s.rsp := rfl
@[simp] theorem clearSticky_host : (s.clearSticky).host = s.host := rfl

/-! `setSticky`. -/

@[simp] theorem setSticky_state (c : Cause) : (s.setSticky c).state = s.state := by cases c <;> rfl
@[simp] theorem setSticky_mode (c : Cause) : (s.setSticky c).mode = s.mode := by cases c <;> rfl
@[simp] theorem setSticky_xh (c : Cause) : (s.setSticky c).xh = (s.xh || c == .extractionExhausted) := by cases c <;> simp [State.setSticky]
@[simp] theorem setSticky_ill (c : Cause) : (s.setSticky c).ill = (s.ill || c == .illegalCommand) := by cases c <;> simp [State.setSticky]
@[simp] theorem setSticky_ns (c : Cause) : (s.setSticky c).ns = (s.ns || c == .notSeeded) := by cases c <;> simp [State.setSticky]
@[simp] theorem setSticky_activity (c : Cause) : (s.setSticky c).activity = s.activity := by cases c <;> rfl
@[simp] theorem setSticky_phase (c : Cause) : (s.setSticky c).phase = s.phase := by cases c <;> rfl
@[simp] theorem setSticky_b1 (c : Cause) : (s.setSticky c).b1 = s.b1 := by cases c <;> rfl
@[simp] theorem setSticky_draws (c : Cause) : (s.setSticky c).draws = s.draws := by cases c <;> rfl
@[simp] theorem setSticky_out (c : Cause) : (s.setSticky c).out = s.out := by cases c <;> rfl
@[simp] theorem setSticky_rsp (c : Cause) : (s.setSticky c).rsp = s.rsp := by cases c <;> rfl
@[simp] theorem setSticky_host (c : Cause) : (s.setSticky c).host = s.host := by cases c <;> rfl

/-! `takeCommand`. -/

@[simp] theorem takeCommand_state (rest : List HostMove) : (takeCommand rest s).state = s.state := rfl
@[simp] theorem takeCommand_mode (rest : List HostMove) : (takeCommand rest s).mode = s.mode := rfl
@[simp] theorem takeCommand_xh (rest : List HostMove) : (takeCommand rest s).xh = s.xh := rfl
@[simp] theorem takeCommand_ill (rest : List HostMove) : (takeCommand rest s).ill = s.ill := rfl
@[simp] theorem takeCommand_ns (rest : List HostMove) : (takeCommand rest s).ns = s.ns := rfl
@[simp] theorem takeCommand_activity (rest : List HostMove) : (takeCommand rest s).activity = s.activity := rfl
@[simp] theorem takeCommand_phase (rest : List HostMove) : (takeCommand rest s).phase = s.phase := rfl
@[simp] theorem takeCommand_b1 (rest : List HostMove) : (takeCommand rest s).b1 = s.b1 := rfl
@[simp] theorem takeCommand_draws (rest : List HostMove) : (takeCommand rest s).draws = s.draws := rfl
@[simp] theorem takeCommand_out (rest : List HostMove) : (takeCommand rest s).out = s.out := rfl
@[simp] theorem takeCommand_rsp (rest : List HostMove) : (takeCommand rest s).rsp = none := rfl
@[simp] theorem takeCommand_host (rest : List HostMove) : (takeCommand rest s).host = rest := rfl

/-! `startGenerate`. -/

@[simp] theorem startGenerate_state (n : Word) : (startGenerate n s).state = s.state := rfl
@[simp] theorem startGenerate_mode (n : Word) : (startGenerate n s).mode = s.mode := rfl
@[simp] theorem startGenerate_xh (n : Word) : (startGenerate n s).xh = s.xh := rfl
@[simp] theorem startGenerate_ill (n : Word) : (startGenerate n s).ill = s.ill := rfl
@[simp] theorem startGenerate_ns (n : Word) : (startGenerate n s).ns = s.ns := rfl
@[simp] theorem startGenerate_activity (n : Word) : (startGenerate n s).activity = .generating n := rfl
@[simp] theorem startGenerate_phase (n : Word) : (startGenerate n s).phase = .first := rfl
@[simp] theorem startGenerate_b1 (n : Word) : (startGenerate n s).b1 = s.b1 := rfl
@[simp] theorem startGenerate_draws (n : Word) : (startGenerate n s).draws = 0 := rfl
@[simp] theorem startGenerate_out (n : Word) : (startGenerate n s).out = [] := rfl
@[simp] theorem startGenerate_rsp (n : Word) : (startGenerate n s).rsp = s.rsp := rfl
@[simp] theorem startGenerate_host (n : Word) : (startGenerate n s).host = s.host := rfl

/-! `ofFilter`. -/

@[simp] theorem ofFilter_state (f : FilterState Word) : (s.ofFilter f).state = .value f.src := rfl
@[simp] theorem ofFilter_mode (f : FilterState Word) : (s.ofFilter f).mode = s.mode := rfl
@[simp] theorem ofFilter_xh (f : FilterState Word) : (s.ofFilter f).xh = s.xh := rfl
@[simp] theorem ofFilter_ill (f : FilterState Word) : (s.ofFilter f).ill = s.ill := rfl
@[simp] theorem ofFilter_ns (f : FilterState Word) : (s.ofFilter f).ns = s.ns := rfl
@[simp] theorem ofFilter_activity (f : FilterState Word) : (s.ofFilter f).activity = s.activity := rfl
@[simp] theorem ofFilter_phase (f : FilterState Word) : (s.ofFilter f).phase = f.phase := rfl
@[simp] theorem ofFilter_b1 (f : FilterState Word) : (s.ofFilter f).b1 = f.b1 := rfl
@[simp] theorem ofFilter_draws (f : FilterState Word) : (s.ofFilter f).draws = f.draws := rfl
@[simp] theorem ofFilter_out (f : FilterState Word) : (s.ofFilter f).out = f.out := rfl
@[simp] theorem ofFilter_rsp (f : FilterState Word) : (s.ofFilter f).rsp = s.rsp := rfl
@[simp] theorem ofFilter_host (f : FilterState Word) : (s.ofFilter f).host = s.host := rfl

/-! `raiseFault`. -/

@[simp] theorem raiseFault_state (c : Cause) : (raiseFault c s).state = s.state := by simp [raiseFault]
@[simp] theorem raiseFault_mode (c : Cause) : (raiseFault c s).mode = s.mode := by simp [raiseFault]
@[simp] theorem raiseFault_xh (c : Cause) : (raiseFault c s).xh = (s.xh || c == .extractionExhausted) := by simp [raiseFault]
@[simp] theorem raiseFault_ill (c : Cause) : (raiseFault c s).ill = (s.ill || c == .illegalCommand) := by simp [raiseFault]
@[simp] theorem raiseFault_ns (c : Cause) : (raiseFault c s).ns = (s.ns || c == .notSeeded) := by simp [raiseFault]
@[simp] theorem raiseFault_activity (c : Cause) : (raiseFault c s).activity = .idle := rfl
@[simp] theorem raiseFault_phase (c : Cause) : (raiseFault c s).phase = .first := rfl
@[simp] theorem raiseFault_b1 (c : Cause) : (raiseFault c s).b1 = s.b1 := by simp [raiseFault]
@[simp] theorem raiseFault_draws (c : Cause) : (raiseFault c s).draws = 0 := rfl
@[simp] theorem raiseFault_out (c : Cause) : (raiseFault c s).out = [] := rfl
@[simp] theorem raiseFault_rsp (c : Cause) : (raiseFault c s).rsp = some ⟨faultWord c, none⟩ := rfl
@[simp] theorem raiseFault_host (c : Cause) : (raiseFault c s).host = s.host := by simp [raiseFault]

/-! `finished`. -/

@[simp] theorem finished_state (v : Word) (r : Response) : (s.finished v r).state = .value v := rfl
@[simp] theorem finished_mode (v : Word) (r : Response) : (s.finished v r).mode = s.mode := rfl
@[simp] theorem finished_xh (v : Word) (r : Response) : (s.finished v r).xh = s.xh := rfl
@[simp] theorem finished_ill (v : Word) (r : Response) : (s.finished v r).ill = s.ill := rfl
@[simp] theorem finished_ns (v : Word) (r : Response) : (s.finished v r).ns = s.ns := rfl
@[simp] theorem finished_activity (v : Word) (r : Response) : (s.finished v r).activity = .idle := rfl
@[simp] theorem finished_phase (v : Word) (r : Response) : (s.finished v r).phase = .first := rfl
@[simp] theorem finished_b1 (v : Word) (r : Response) : (s.finished v r).b1 = s.b1 := rfl
@[simp] theorem finished_draws (v : Word) (r : Response) : (s.finished v r).draws = 0 := rfl
@[simp] theorem finished_out (v : Word) (r : Response) : (s.finished v r).out = [] := rfl
@[simp] theorem finished_rsp (v : Word) (r : Response) : (s.finished v r).rsp = some r := rfl
@[simp] theorem finished_host (v : Word) (r : Response) : (s.finished v r).host = s.host := rfl

/-! `presentWord`. -/

@[simp] theorem presentWord_state (w : CmdWord) : (presentWord w s).state = s.state := rfl
@[simp] theorem presentWord_mode (w : CmdWord) : (presentWord w s).mode = s.mode := rfl
@[simp] theorem presentWord_xh (w : CmdWord) : (presentWord w s).xh = s.xh := rfl
@[simp] theorem presentWord_ill (w : CmdWord) : (presentWord w s).ill = s.ill := rfl
@[simp] theorem presentWord_ns (w : CmdWord) : (presentWord w s).ns = s.ns := rfl
@[simp] theorem presentWord_activity (w : CmdWord) : (presentWord w s).activity = .idle := rfl
@[simp] theorem presentWord_phase (w : CmdWord) : (presentWord w s).phase = .first := rfl
@[simp] theorem presentWord_b1 (w : CmdWord) : (presentWord w s).b1 = s.b1 := rfl
@[simp] theorem presentWord_draws (w : CmdWord) : (presentWord w s).draws = 0 := rfl
@[simp] theorem presentWord_out (w : CmdWord) : (presentWord w s).out = [] := rfl
@[simp] theorem presentWord_rsp (w : CmdWord) : (presentWord w s).rsp = s.rsp := rfl
@[simp] theorem presentWord_host (w : CmdWord) : (presentWord w s).host = .command w :: s.host := rfl

end Sys2Proof.Machine
end

