-- ==== Sys2Proof/Laws/Words.lean ====
section
/-!
SUPPORT. The words a command responds with, and the functions of the four blocks bit by bit.
-/

namespace Sys2Proof.Machine

/-- A word whose upper part is 0 has the bits of its lower part and no others. -/
theorem zero_append_getLsbD {m n : Nat} (x : BitVec n) (i : Nat) : ((0 : BitVec m) ++ x).getLsbD i = x.getLsbD i := by
  rw [BitVec.getLsbD_append]
  split
  · rfl
  · rw [BitVec.getLsbD_of_ge x i (by omega)]; exact BitVec.getLsbD_zero

theorem bitWord_getLsbD (b : Bit) (i : Nat) : (bitWord b).getLsbD i = (i == 0 && b) := by
  refine (zero_append_getLsbD (m := 63) (BitVec.ofBool b) i).trans ?_
  cases i <;> cases b <;> simp

@[simp] theorem bitWord_toNat (b : Bit) : (bitWord b).toNat = b.toNat := by cases b <;> rfl

theorem nibbleWord_getLsbD (n : Nibble) (i : Nat) : (nibbleWord n).getLsbD i = n.getLsbD i :=
  zero_append_getLsbD (m := 60) n i

theorem nibbleWord_eq (n : Nibble) : nibbleWord n = BitVec.ofNat 64 n.toNat := by
  apply BitVec.eq_of_getLsbD_eq
  intro i hi
  rw [nibbleWord_getLsbD, BitVec.getLsbD_ofNat, BitVec.testBit_toNat, decide_eq_true hi, Bool.true_and]

@[simp] theorem nibbleWord_toNat (n : Nibble) : (nibbleWord n).toNat = n.toNat := by
  rw [nibbleWord_eq, BitVec.toNat_ofNat, Nat.mod_eq_of_lt (Nat.lt_trans n.isLt (by decide))]

theorem lowNibble_getLsbD (v : Word) (i : Nat) : (lowNibble v).getLsbD i = (decide (i < 4) && v.getLsbD i) := by
  rw [lowNibble, BitVec.getLsbD_extractLsb', Nat.zero_add]

@[simp] theorem lowNibble_nibbleWord (n : Nibble) : lowNibble (nibbleWord n) = n := by
  apply BitVec.eq_of_getLsbD_eq
  intro i hi
  rw [lowNibble_getLsbD, nibbleWord_getLsbD, decide_eq_true hi, Bool.true_and]

theorem okWord_getLsbD (d : Word) (i : Nat) : (okWord d).getLsbD i = d.getLsbD i := by
  have h : okWord d = ((0 : BitVec 3) ++ d : BitVec (3 + 64)) := rfl
  rw [h, zero_append_getLsbD]

@[simp] theorem ok_isFault (d : Word) (b : Option (List Bit)) : (Response.mk (okWord d) b).isFault = false := by
  rw [Response.isFault, okWord_getLsbD]
  exact BitVec.getLsbD_of_ge d 66 (by decide)

@[simp] theorem ok_cause (d : Word) (b : Option (List Bit)) : (Response.mk (okWord d) b).cause = 0 := by
  apply BitVec.eq_of_getLsbD_eq
  intro i hi
  rw [Response.cause, BitVec.getLsbD_extractLsb', okWord_getLsbD, BitVec.getLsbD_of_ge d _ (by omega), Bool.and_false]
  exact BitVec.getLsbD_zero.symm

@[simp] theorem ok_data (d : Word) (b : Option (List Bit)) : (Response.mk (okWord d) b).data = d := by
  apply BitVec.eq_of_getLsbD_eq
  intro i hi
  rw [Response.data, BitVec.getLsbD_extractLsb', Nat.zero_add, okWord_getLsbD, decide_eq_true hi, Bool.true_and]

@[simp] theorem fault_isFault (c : Cause) (b : Option (List Bit)) : (Response.mk (faultWord c) b).isFault = true := by
  change (faultWord c).getLsbD 66 = true
  cases c <;> decide

@[simp] theorem fault_cause (c : Cause) (b : Option (List Bit)) : (Response.mk (faultWord c) b).cause = c.code := by
  change (faultWord c).extractLsb' 64 2 = c.code
  cases c <;> decide

@[simp] theorem fault_data (c : Cause) (b : Option (List Bit)) : (Response.mk (faultWord c) b).data = 0 := by
  change (faultWord c).extractLsb' 0 64 = 0
  cases c <;> decide

/-- Two successful responses are equal only if their data and bits are. -/
theorem okWord_inj {d e : Word} (h : okWord d = okWord e) : d = e := by
  have := congrArg (fun w => (Response.mk w none).data) h
  simpa using this

theorem ok_formed (d : Word) : (Response.mk (okWord d) none).Formed where
  ok_cause _ := ok_cause d none
  ok_bits _ h := absurd rfl h
  fault_cause h := by simp at h
  fault_empty h := by simp at h

theorem okBits_formed (bits : List Bit) : (Response.mk (okWord 0) (some bits)).Formed where
  ok_cause _ := ok_cause 0 _
  ok_bits _ _ := ok_data 0 _
  fault_cause h := by simp at h
  fault_empty h := by simp at h

theorem fault_formed (c : Cause) : (Response.mk (faultWord c) none).Formed where
  ok_cause h := by simp at h
  ok_bits h := by simp at h
  fault_cause _ := by cases c <;> decide
  fault_empty _ := ⟨fault_data c none, rfl⟩

theorem even_iff (s : Word) : s.getLsbD 0 = false ↔ s.toNat % 2 = 0 := by
  rw [← BitVec.testBit_toNat, Nat.testBit_zero]
  simp

theorem odd_iff (s : Word) : s.getLsbD 0 = true ↔ s.toNat % 2 = 1 := by
  rw [← BitVec.testBit_toNat, Nat.testBit_zero]
  simp

theorem transform_even {s : Word} (h : s.getLsbD 0 = false) : transform s = (s >>> 1) ^^^ K := by
  rw [transform, h]
  rfl

theorem transform_odd {s : Word} (h : s.getLsbD 0 = true) :
    (transform s).toNat = (3 * s.toNat + 1) % (2 ^ 64 - 59) := by
  have hlt : (3 * s.toNat + 1) % M < 2 ^ 64 := Nat.lt_trans (Nat.mod_lt _ (by decide)) (by decide)
  rw [transform, h, if_pos rfl, BitVec.toNat_ofNat]
  exact Nat.mod_eq_of_lt hlt

theorem rotr64_getLsbD (x : Word) {n : Nat} (h0 : 0 < n) (hn : n < 64) (i : Nat) :
    (rotr64 x n).getLsbD i = (decide (i < 64) && x.getLsbD ((i + n) % 64)) := by
  rw [rotr64, BitVec.getLsbD_or, BitVec.getLsbD_ushiftRight, BitVec.getLsbD_shiftLeft]
  by_cases hi : i < 64
  · by_cases h : i < 64 - n
    · have : (i + n) % 64 = n + i := by omega
      simp only [this, hi, h, decide_true, Bool.not_true, Bool.and_false, Bool.false_and, Bool.or_false, Bool.true_and]
    · have h3 : (i + n) % 64 = i - (64 - n) := by omega
      have : x.getLsbD (n + i) = false := BitVec.getLsbD_of_ge _ _ (by omega)
      simp only [this, hi, h, h3, decide_true, decide_false, Bool.not_false, Bool.and_true, Bool.true_and, Bool.false_or]
  · have : x.getLsbD (n + i) = false := BitVec.getLsbD_of_ge _ _ (by omega)
    simp only [this, hi, decide_false, Bool.false_and, Bool.false_or]

theorem rotr3_eq_rotr64 (x : Word) : rotr3 x = rotr64 x 3 := rfl

theorem rotr3_getLsbD (x : Word) (i : Nat) :
    (rotr3 x).getLsbD i = (decide (i < 64) && x.getLsbD ((i + 3) % 64)) := by
  rw [rotr3_eq_rotr64, rotr64_getLsbD x (by decide) (by decide)]

end Sys2Proof.Machine
end

