-- ==== Sys2Proof/Laws/Ops.lean ====
section
/-!
SUPPORT. What the shared operations can do, said once: reading `State`, and one transition of the sequencer.
-/

namespace Sys2Proof.Machine

theorem withSeed_noValue {s : State} (h : s.state = .noValue) (k : Word → Result) :
    withSeed s k = .next (raiseFault .notSeeded s) := by simp [withSeed, h]

theorem withSeed_value {s : State} {v : Word} (h : s.state = .value v) (k : Word → Result) :
    withSeed s k = k v := by simp [withSeed, h]

theorem state_cases (s : State) : s.state = .noValue ∨ ∃ v, s.state = .value v := by
  cases s.state <;> simp

theorem seeded_iff {s : State} : s.seeded = true ↔ ∃ v, s.state = .value v := by
  unfold State.seeded
  split <;> simp [*]

theorem not_seeded_iff {s : State} : s.seeded = false ↔ s.state = .noValue := by
  unfold State.seeded
  split <;> simp [*]

/-- On a clean idle core a fault changes its own flag and the response only. -/
theorem raiseFault_clean {s : State} (c : Cause) (h : s.activity = .idle)
    (hc : s.phase = .first ∧ s.out = [] ∧ s.draws = 0) :
    raiseFault c s = { s.setSticky c with rsp := some ⟨faultWord c, none⟩ } := by
  obtain ⟨h1, h2, h3⟩ := hc
  cases s
  cases c <;> simp_all [raiseFault, goIdle, State.setSticky]

@[simp] theorem toFilter_src (s : State) (v : Word) : (s.toFilter v).src = v := rfl
@[simp] theorem toFilter_phase (s : State) (v : Word) : (s.toFilter v).phase = s.phase := rfl
@[simp] theorem toFilter_b1 (s : State) (v : Word) : (s.toFilter v).b1 = s.b1 := rfl
@[simp] theorem toFilter_draws (s : State) (v : Word) : (s.toFilter v).draws = s.draws := rfl
@[simp] theorem toFilter_out (s : State) (v : Word) : (s.toFilter v).out = s.out := rfl

@[simp] theorem overBudget_none (draws : Nat) : overBudget none draws = false := rfl

theorem overBudget_some {b draws : Nat} : overBudget (some b) draws = true ↔ b < draws + 2 := by simp [overBudget]

theorem overBudget_eq_true {budget : Option Nat} {draws : Nat} :
    overBudget budget draws = true ↔ ∃ b, budget = some b ∧ b < draws + 2 := by
  cases budget <;> simp [overBudget]

theorem overBudget_eq_false {budget : Option Nat} {draws : Nat} :
    overBudget budget draws = false ↔ withinBudget budget (draws + 2) := by
  cases budget <;> simp [overBudget, withinBudget]

/-- A pair appends its first bit when its bits differ. -/
theorem appendPair_eq (out : List Bit) (b1 b2 : Bit) :
    appendPair out b1 b2 = if b1 ≠ b2 then out ++ [b1] else out := by
  cases b1 <;> cases b2 <;> rfl

/-- One transition of the canonical sequencer: complete, exhausted, or one of the two draws of a pair. -/
theorem filterMove_cases {σ : Type} (src : σ → σ × Bit) (length : Nat) (budget : Option Nat) (f : FilterState σ) :
    (f.phase = .first ∧ f.out.length = length ∧ filterMove src length budget f = .done f.out) ∨
    (f.phase = .first ∧ f.out.length ≠ length ∧ overBudget budget f.draws = true ∧
      filterMove src length budget f = .exhausted) ∨
    (f.phase = .first ∧ f.out.length ≠ length ∧ overBudget budget f.draws = false ∧
      filterMove src length budget f =
        .running { f with src := (src f.src).1, b1 := (src f.src).2, draws := f.draws + 1, phase := .second }) ∨
    (f.phase = .second ∧ filterMove src length budget f =
        .running { f with src := (src f.src).1, draws := f.draws + 1, phase := .first,
                          out := appendPair f.out f.b1 (src f.src).2 }) := by
  unfold filterMove
  cases hp : f.phase
  · by_cases hl : f.out.length = length
    · simp [hl]
    · cases ho : overBudget budget f.draws <;> simp [hl]
  · simp

/-- One turn of the simplified loop: complete, or one draw that is emitted. -/
theorem plainMove_cases {σ : Type} (src : σ → σ × Bit) (length : Nat) (f : FilterState σ) :
    (f.out.length = length ∧ plainMove src length f = .done f.out) ∨
    (f.out.length ≠ length ∧ plainMove src length f =
      .running { f with src := (src f.src).1, draws := f.draws + 1, out := f.out ++ [(src f.src).2] }) := by
  unfold plainMove
  by_cases hl : f.out.length = length <;> simp [hl]

/-- The sequencer's step by the move it makes. -/
theorem sequencerWith_value {P : Params} {n : Word} {s : State} {v : Word} (h : s.state = .value v) :
    sequencerWith P n s = applyMove s (generateMove P s.mode n.toNat (s.toFilter v)) := by
  simp [sequencerWith, h]

@[simp] theorem applyMove_running (s : State) (f : FilterState Word) : applyMove s (.running f) = .next (s.ofFilter f) := rfl

@[simp] theorem applyMove_done (s : State) (bits : List Bit) :
    applyMove s (.done bits) = .next (respondBits bits (goIdle s)) := rfl

@[simp] theorem applyMove_exhausted (s : State) :
    applyMove s .exhausted = .next (raiseFault .extractionExhausted s) := rfl

/-- A step of the sequencer that goes on is a draw of the source that `State` is, a completion or an exhaustion. -/
theorem sequencerWith_cases {P : Params} {n : Word} {s t : State} (h : sequencerWith P n s = .next t) :
    ∃ v, s.state = .value v ∧
      ((∃ f, generateMove P s.mode n.toNat (s.toFilter v) = .running f ∧ f.src = drawMap v ∧ t = s.ofFilter f) ∨
        (s.out.length = n.toNat ∧ t = respondBits s.out (goIdle s)) ∨
        (s.mode = .canonical ∧ s.phase = .first ∧ s.out.length ≠ n.toNat ∧
          overBudget (drawBudget P.budgetMult n.toNat) s.draws = true ∧
          t = raiseFault .extractionExhausted s)) := by
  cases hs : s.state with
  | noValue => simp [sequencerWith, hs] at h
  | value v =>
    refine ⟨v, rfl, ?_⟩
    rw [sequencerWith_value hs] at h
    cases hm : s.mode with
    | canonical =>
      simp only [generateMove, hm] at h ⊢
      rcases filterMove_cases (rawDraw P .canonical) n.toNat (drawBudget P.budgetMult n.toNat) (s.toFilter v) with
        ⟨_, hl, he⟩ | ⟨hp, hl, ho, he⟩ | ⟨_, _, _, he⟩ | ⟨_, he⟩ <;> rw [he] at h ⊢ <;>
        simp only [applyMove_running, applyMove_done, applyMove_exhausted, Host.Outcome.next.injEq] at h
      · exact .inr (.inl ⟨hl, h.symm⟩)
      · exact .inr (.inr ⟨by simp, hp, hl, ho, h.symm⟩)
      · exact .inl ⟨_, rfl, rfl, h.symm⟩
      · exact .inl ⟨_, rfl, rfl, h.symm⟩
    | simplified =>
      simp only [generateMove, hm] at h ⊢
      rcases plainMove_cases (rawDraw P .simplified) n.toNat (s.toFilter v) with ⟨hl, he⟩ | ⟨_, he⟩ <;>
        rw [he] at h ⊢ <;> simp only [applyMove_running, applyMove_done, Host.Outcome.next.injEq] at h
      · exact .inr (.inl ⟨hl, h.symm⟩)
      · exact .inl ⟨_, rfl, rfl, h.symm⟩

/-- The sequencer stops only on a `State` without a value. -/
theorem sequencerWith_next (P : Params) (n : Word) {s : State} {v : Word} (h : s.state = .value v) :
    ∃ t, sequencerWith P n s = .next t := by
  rw [sequencerWith_value h]
  cases generateMove P s.mode n.toNat (s.toFilter v) <;> exact ⟨_, rfl⟩

/-- The first turn of the filter's loop. -/
theorem vnFilterLoop_succ {σ : Type} (src : σ → σ × Bit) (length : Nat) (budget : Option Nat) (fuel : Nat) (q : σ)
    (out : List Bit) (draws : Nat) :
    vnFilterLoop src length budget (fuel + 1) q out draws =
      if out.length = length then some (.done q out draws)
      else if overBudget budget draws then some (.exhausted q draws)
      else vnFilterLoop src length budget fuel (src (src q).1).1
        (if (src q).2 ≠ (src (src q).1).2 then out ++ [(src q).2] else out) (draws + 2) := rfl

end Sys2Proof.Machine
end

