-- ==== Sys2Proof/Laws/PerInstr.lean ====
section
/-!
SUPPORT. What holds of every operation as syntax, one lemma per constructor: the encoder's word is covered by a row of the
opcode table, so its reserved bits are 0 (spec/30_encoding.md R61, R65).
-/

namespace Sys2Proof.Laws.EncodeWellFormed

/-- The word of the operation is well formed. -/
def Statement (i : Instr) : Prop := wellFormed (encode i) = true

/-- A row that fixes `op` and no bit of `arg` covers every word with that `op`. -/
theorem word_format {r : Row} {op : Nibble} {arg : Word} (h : r ∈ opcodeRows)
    (hr : r = Row.mk ((0xF : Nibble) ++ (0 : Word) : CmdWord) (op ++ (0 : Word) : CmdWord)) :
    wellFormed (op ++ arg) = true := by
  refine wellFormed_of_row h ?_
  rw [hr, Row.covers_append]
  exact ⟨BitVec.and_allOnes, BitVec.and_zero⟩

theorem loadseed (seed : Word) : Statement (.loadseed seed) :=
  word_format (r := ⟨0xF0000000000000000, 0x00000000000000000⟩) (op := 0) (by decide) (by decide)

theorem setmode (mode : Mode) : Statement (.setmode mode) := by
  cases mode <;> (unfold Statement; decide)

theorem generate (length : Word) : Statement (.generate length) :=
  word_format (r := ⟨0xF0000000000000000, 0x20000000000000000⟩) (op := 2) (by decide) (by decide)

theorem draw : Statement .draw := by unfold Statement; decide

theorem step (x : Word) : Statement (.step x) :=
  word_format (r := ⟨0xF0000000000000000, 0x40000000000000000⟩) (op := 4) (by decide) (by decide)

theorem rotr3 (x : Word) : Statement (.rotr3 x) :=
  word_format (r := ⟨0xF0000000000000000, 0x50000000000000000⟩) (op := 5) (by decide) (by decide)

theorem extract (x : Word) : Statement (.extract x) :=
  word_format (r := ⟨0xF0000000000000000, 0x60000000000000000⟩) (op := 6) (by decide) (by decide)

theorem rdstate : Statement .rdstate := by unfold Statement; decide

theorem rdstatus : Statement .rdstatus := by unfold Statement; decide

theorem sboxrd (idx : Nibble) : Statement (.sboxrd idx) := by
  unfold Statement
  revert idx
  decide

theorem vnpair (b1 b2 : Bit) : Statement (.vnpair b1 b2) := by
  cases b1 <;> cases b2 <;> (unfold Statement; decide)

end Sys2Proof.Laws.EncodeWellFormed
end

