-- ==== Sys2Proof/Laws/Step.lean ====
section
/-!
SUPPORT. What a step can do, by the host's next move.
-/

namespace Sys2Proof.Machine

variable {s t : State}

theorem step_silent (h : s.host = []) : step s = advance s := by simp [step, h]

theorem step_wait {rest : List HostMove} (h : s.host = .wait :: rest) : step s = advance { s with host := rest } := by
  simp [step, h]

theorem step_reset {rest : List HostMove} (h : s.host = .reset :: rest) : step s = .next (applyReset rest) := by
  simp [step, h]

theorem step_accept {w : CmdWord} {rest : List HostMove} (ha : s.activity = .idle) (h : s.host = .command w :: rest) :
    step s = runWord w (takeCommand rest s) := by
  simp [step, h, offerCommand, ha]

theorem step_busy {w : CmdWord} {rest : List HostMove} {n : Word} (ha : s.activity = .generating n)
    (h : s.host = .command w :: rest) : step s = advance s := by
  simp [step, h, offerCommand, ha]

theorem advanceWith_idle (P : Params) (h : s.activity = .idle) : advanceWith P s = .next s := by simp [advanceWith, h]

theorem advanceWith_generating (P : Params) {n : Word} (h : s.activity = .generating n) :
    advanceWith P s = sequencerWith P n s := by simp [advanceWith, h]

/-- A quiet host's command waits, so a busy core makes its own move. -/
theorem step_quiet {n : Word} (hq : HostQuiet s.host) (ha : s.activity = .generating n) :
    step s = sequencerWith Config.params n s := by
  rcases hq with h | ⟨w, rest, h⟩
  · rw [step_silent h, advance, advanceWith_generating _ ha]
  · rw [step_busy ha h, advance, advanceWith_generating _ ha]

theorem activity_cases (s : State) : s.activity = .idle ∨ ∃ n, s.activity = .generating n := by
  cases s.activity <;> simp

/-- Every step is a reset, the acceptance of a word by an idle core, a quiet move of an idle core, or one transition of the
`GENERATE` in progress; the last two on the state with the host's list as the step leaves it. -/
theorem step_cases (h : step s = .next t) :
    (∃ rest, s.host = .reset :: rest ∧ t = applyReset rest) ∨
    (∃ w rest, s.activity = .idle ∧ s.host = .command w :: rest ∧ runWord w (takeCommand rest s) = .next t) ∨
    (∃ host, s.activity = .idle ∧ (∀ rest, s.host ≠ .reset :: rest) ∧ t = { s with host := host }) ∨
    (∃ n host, s.activity = .generating n ∧ (∀ rest, s.host ≠ .reset :: rest) ∧
      sequencerWith Config.params n { s with host := host } = .next t) := by
  have core : ∀ host, (∀ rest, s.host ≠ .reset :: rest) → advance { s with host := host } = .next t →
      (∃ host, s.activity = .idle ∧ (∀ rest, s.host ≠ .reset :: rest) ∧ t = { s with host := host }) ∨
      (∃ n host, s.activity = .generating n ∧ (∀ rest, s.host ≠ .reset :: rest) ∧
        sequencerWith Config.params n { s with host := host } = .next t) := by
    intro host hr ha
    obtain hs | ⟨n, hs⟩ := activity_cases s
    · rw [advance, advanceWith_idle _ (by exact hs)] at ha
      exact .inl ⟨host, hs, hr, (Host.Outcome.next.inj ha).symm⟩
    · rw [advance, advanceWith_generating _ (n := n) (by exact hs)] at ha
      exact .inr ⟨n, host, hs, hr, ha⟩
  cases hh : s.host with
  | nil =>
    rw [step_silent hh] at h
    exact .inr (.inr (by simpa [hh] using core s.host (by simp [hh]) h))
  | cons m rest =>
    cases m with
    | wait =>
      rw [step_wait hh] at h
      exact .inr (.inr (by simpa [hh] using core rest (by simp [hh]) h))
    | reset =>
      rw [step_reset hh] at h
      exact .inl ⟨rest, rfl, (Host.Outcome.next.inj h).symm⟩
    | command w =>
      obtain ha | ⟨n, ha⟩ := activity_cases s
      · rw [step_accept ha hh] at h
        exact .inr (.inl ⟨w, rest, ha, rfl, h⟩)
      · rw [step_busy ha hh] at h
        exact .inr (.inr (by simpa [hh] using core s.host (by simp [hh]) h))

/-- One step of the host's run. -/
theorem core_run_next (h : step s = .next t) (k : Nat) : Sys2Proof.core.run (k + 1) s = Sys2Proof.core.run k t := by
  have hs : Sys2Proof.core.step s = Host.Outcome.next t := h
  simp only [Host.Core.run, hs]

theorem core_run_fault {f : Fault} (h : step s = .fault f) (k : Nat) : Sys2Proof.core.run (k + 1) s = .fault f := by
  have hs : Sys2Proof.core.step s = Host.Outcome.fault f := h
  simp only [Host.Core.run, hs]

theorem core_run_refused {r : Refusal} (h : step s = .refused r) (k : Nat) :
    Sys2Proof.core.run (k + 1) s = .refused r := by
  have hs : Sys2Proof.core.step s = Host.Outcome.refused r := h
  simp only [Host.Core.run, hs]

/-- One move of the core's own run. -/
theorem runCore_next {P : Params} (h : advanceWith P s = .next t) (k : Nat) : runCore P (k + 1) s = runCore P k t := by
  simp only [runCore, h]

/-- Running a word is running its operation, or raising `IllegalCommand`. -/
theorem runWord_ok {w : CmdWord} {i : Instr} (h : decode w = .ok i) (s : State) : runWord w s = exec i s := by
  simp [runWord, h]

theorem runWord_illegal {w : CmdWord} {e : Illegal} (h : decode w = .error e) (s : State) :
    runWord w s = .next (raiseFault .illegalCommand s) := by simp [runWord, h]

/-- Every meaning goes on, on every state. -/
theorem exec_next (i : Instr) (s : State) : ∃ t, exec i s = .next t := by
  cases hs : s.state <;> cases i <;>
    simp [exec, execLoadseed, execSetmode, execGenerate, execDraw, drawWith, execStep, execRotr3, execExtract,
      execRdstate, execRdstatus, execSboxrd, execVnpair, withSeed, hs]

end Sys2Proof.Machine
end

