-- ==== Sys2Proof/Machine/Text.lean ====
section
/-!
DEFINITION. The textual syntax of commands (spec/30_encoding.md R70, R71), on lists of characters: a mnemonic and its
operands separated by commas, numbers in decimal or with the prefix `0x`, a comment from `;` to the end of the line, and the
pseudo-operation `INIT`. It belongs to the host: the core sees command words only. What R70 leaves open (blanks, capitals,
how a number too wide for its operand is treated) is log entry 13.
-/

namespace Sys2Proof.Machine

/-- A line without its comment (R70). -/
def dropComment : List Char → List Char
  | [] => []
  | c :: cs => if c = ';' then [] else c :: dropComment cs

/-- A blank or a tab (log entry 13). -/
def isBlank (c : Char) : Bool := c = ' ' || c = '\t'

/-- Text without the blanks at both ends. -/
def trimBlanks (cs : List Char) : List Char := ((cs.dropWhile isBlank).reverse.dropWhile isBlank).reverse

/-- The text up to the first blank, and the rest. -/
def splitWord (cs : List Char) : List Char × List Char := cs.span fun c => !isBlank c

/-- The operands between commas. -/
def splitCommas : List Char → List (List Char)
  | [] => [[]]
  | c :: cs =>
    match splitCommas cs with
    | [] => [[]]
    | w :: ws => if c = ',' then [] :: w :: ws else (c :: w) :: ws

/-- The value of a digit in a base up to 16. -/
def digitValue (base : Nat) (c : Char) : Option Nat :=
  let n := c.toNat
  let v := if 48 ≤ n ∧ n ≤ 57 then n - 48 else if 65 ≤ n ∧ n ≤ 70 then n - 55 else if 97 ≤ n ∧ n ≤ 102 then n - 87 else 16
  if v < base then some v else none

/-- Digits after those already read, most significant first. -/
def readDigits (base : Nat) : Nat → List Char → Option Nat
  | n, [] => some n
  | n, c :: cs =>
    match digitValue base c with
    | none => none
    | some d => readDigits base (base * n + d) cs

/-- A number in decimal, or in hexadecimal with the prefix `0x` (R70). -/
def readNumber : List Char → Option Nat
  | [] => none
  | '0' :: 'x' :: c :: cs => readDigits 16 0 (c :: cs)
  | cs => readDigits 10 0 cs

/-- A number that fits an operand of `width` bits (R61, R62). -/
def fits (width n : Nat) : Option (BitVec width) := if n < 2 ^ width then some (BitVec.ofNat width n) else none

/-- A one-bit operand. -/
def fitsBit (n : Nat) : Option Bit := (fits 1 n).map fun b => b.getLsbD 0

/-- The operations a mnemonic with its operands stands for (R63, R70, R71). A seed wider than 64 bits is folded by the host
(spec/44_system_ops.md R151); any other number too wide for its operand is refused (log entry 13). -/
def assemble (mnemonic : List Char) (operands : List Nat) : Option (List Instr) :=
  match operands with
  | [] =>
    if mnemonic = ['D', 'R', 'A', 'W'] then some [.draw]
    else if mnemonic = ['R', 'D', 'S', 'T', 'A', 'T', 'E'] then some [.rdstate]
    else if mnemonic = ['R', 'D', 'S', 'T', 'A', 'T', 'U', 'S'] then some [.rdstatus]
    else none
  | [n] =>
    if mnemonic = ['L', 'O', 'A', 'D', 'S', 'E', 'E', 'D'] then some [.loadseed (foldSeed n)]
    else if mnemonic = ['S', 'E', 'T', 'M', 'O', 'D', 'E'] then (fitsBit n).map fun b => [.setmode (.ofBit b)]
    else if mnemonic = ['G', 'E', 'N', 'E', 'R', 'A', 'T', 'E'] then (fits 64 n).map fun v => [.generate v]
    else if mnemonic = ['S', 'T', 'E', 'P'] then (fits 64 n).map fun v => [.step v]
    else if mnemonic = ['R', 'O', 'T', 'R', '3'] then (fits 64 n).map fun v => [.rotr3 v]
    else if mnemonic = ['E', 'X', 'T', 'R', 'A', 'C', 'T'] then (fits 64 n).map fun v => [.extract v]
    else if mnemonic = ['S', 'B', 'O', 'X', 'R', 'D'] then (fits 4 n).map fun v => [.sboxrd v]
    else none
  | [m, n] =>
    if mnemonic = ['V', 'N', 'P', 'A', 'I', 'R'] then
      (fitsBit m).bind fun b1 => (fitsBit n).map fun b2 => [.vnpair b1 b2]
    else if mnemonic = ['I', 'N', 'I', 'T'] then (fitsBit n).map fun b => pseudoInit (foldSeed m) (.ofBit b)
    else none
  | _ => none

/-- The numbers of an operand list; an empty list where there is no text. -/
def readOperands (cs : List Char) : Option (List Nat) :=
  if cs = [] then some [] else (splitCommas cs).mapM fun w => readNumber (trimBlanks w)

/-- The operations a line stands for: none for a line that holds no command, a refusal for one that cannot be read. -/
def parseLine (line : List Char) : Option (List Instr) :=
  let text := trimBlanks (dropComment line)
  if text = [] then some []
  else
    let parts := splitWord text
    (readOperands (trimBlanks parts.2)).bind fun operands => assemble parts.1 operands

end Sys2Proof.Machine
end

