-- ==== Sys2Proof/Tests/Slice0.lean ====
section
/-!
SUPPORT. The model's own tests. Expected values are the spec's: the vector or rule each comes from is named. The two tables
are the illustration tables of spec/95_test_vectors.md section 2.3; neither is the hardware's, and nothing outside this file
uses them. The second part shows, for each statement with hypotheses, a concrete input that meets them all.
-/

namespace Sys2Proof.Tests

open Sys2Proof Sys2Proof.Machine

/-! ## Set-up -/

/-- `SBOX_ID` (spec/95_test_vectors.md section 2.3). -/
def sboxId : SBox := Equiv.refl _

/-- `SBOX_EX` (spec/95_test_vectors.md section 2.3). -/
def sboxEx : SBox where
  toFun i := [6, 11, 0, 13, 3, 14, 9, 4, 15, 2, 5, 8, 12, 1, 10, (7 : Nibble)].getD i.toNat 0
  invFun i := [2, 13, 9, 4, 7, 10, 0, 15, 11, 6, 14, 1, 12, 3, 5, (8 : Nibble)].getD i.toNat 0
  left_inv := by decide
  right_inv := by decide

def unboundedEx : Params := ⟨sboxEx, .unbounded⟩

def eightEx : Params := ⟨sboxEx, .finite 8 (by decide)⟩

/-- An idle core with a seed and a mode, and what its host does next. -/
def idleAt (v : Word) (mode : Mode) (host : List HostMove) : State :=
  { State.reset with state := .value v, mode := mode, host := host }

/-- A core that executes a `GENERATE`, just begun. -/
def runningAt (v : Word) (mode : Mode) (length : Word) : State :=
  { State.reset with state := .value v, mode := mode, activity := .generating length }

/-- A core as reset leaves it, with a command presented. -/
def unseededWith (w : CmdWord) : State := { State.reset with host := [.command w] }

/-! ## Well-formedness and decoding: an ill-formed word for each check, then words of the spec -/

/-- R64: a reserved `op` (E6, E7). -/
theorem test_wellFormed_reserved_op :
    wellFormed 0xB0000000000000000 = false ∧ wellFormed 0xFFFFFFFFFFFFFFFFF = false := by decide

/-- R65, format M (E9). -/
theorem test_wellFormed_format_M : wellFormed 0x10000000000000002 = false := by decide

/-- R65, format I (X4). -/
theorem test_wellFormed_format_I : wellFormed 0x90000000000000010 = false := by decide

/-- R65, format P (V5). -/
theorem test_wellFormed_format_P : wellFormed 0xA0000000000000004 = false := by decide

/-- R65, format N: `DRAW`, `RDSTATE`, `RDSTATUS` (E8, E11, E12). -/
theorem test_wellFormed_format_N : wellFormed 0x30000000000000001 = false ∧ wellFormed 0x70000000000000001 = false ∧
    wellFormed 0x88000000000000000 = false := by decide

/-- No two rows of the opcode table overlap (R64). -/
theorem test_rows_apart : opcodeRows.Pairwise fun r q => r.apart q = true := by decide

/-- The decoder names the check that a word fails. -/
theorem test_decode_refusals : decode 0xF0000000000000000 = .error .reservedOp ∧
    decode 0x1FFFFFFFFFFFFFFFE = .error .reservedArg ∧ decode 0x98000000000000000 = .error .reservedArg ∧
    decode 0xA8000000000000003 = .error .reservedArg ∧ decode 0x78000000000000000 = .error .reservedArg := by decide

/-- P1 command 2. -/
theorem test_decode_loadseed : decode 0x0000000003ADE68B1 = .ok (.loadseed 987654321) := by decide

/-- P1 command 1, and mode 0. -/
theorem test_decode_setmode : decode 0x10000000000000001 = .ok (.setmode .simplified) ∧
    decode 0x10000000000000000 = .ok (.setmode .canonical) := by decide

/-- P1 command 3. -/
theorem test_decode_generate : decode 0x20000000000000020 = .ok (.generate 32) := by decide

theorem test_decode_draw : decode 0x30000000000000000 = .ok .draw := by decide

/-- P4 command 9. -/
theorem test_decode_step : decode 0x45555555555555555 = .ok (.step 0x5555555555555555) := by decide

/-- P4 command 10. -/
theorem test_decode_rotr3 : decode 0x50000000000000008 = .ok (.rotr3 8) := by decide

/-- P4 command 12. -/
theorem test_decode_extract : decode 0x60000000000000017 = .ok (.extract 0x17) := by decide

theorem test_decode_rdstate : decode 0x70000000000000000 = .ok .rdstate := by decide

theorem test_decode_rdstatus : decode 0x80000000000000000 = .ok .rdstatus := by decide

/-- X2 and X3: the last index is in range. -/
theorem test_decode_sboxrd : decode 0x9000000000000000A = .ok (.sboxrd 10) ∧
    decode 0x9000000000000000F = .ok (.sboxrd 15) := by decide

/-- V2 and V3: `b1` is bit 0 and `b2` is bit 1. -/
theorem test_decode_vnpair : decode 0xA0000000000000001 = .ok (.vnpair true false) ∧
    decode 0xA0000000000000002 = .ok (.vnpair false true) ∧ decode 0xA0000000000000003 = .ok (.vnpair true true) := by
  decide

/-- The encoder on R63's words. -/
theorem test_encode : encode (.vnpair false true) = 0xA0000000000000002 ∧ encode (.sboxrd 15) = 0x9000000000000000F ∧
    encode (.setmode .simplified) = 0x10000000000000001 ∧ encode .rdstatus = 0x80000000000000000 := by decide

/-- A carrier of nine bytes holds one command word; a bit above bit 67 belongs to none (log entry 8). -/
theorem test_tableWord : decodeTableWord 72 0x20000000000000020 = some (.generate 32) ∧
    decodeTableWord 72 0x100000000000000000 = none ∧ decodeTableWord 72 0xB0000000000000000 = none := by decide

/-! ## The blocks -/

/-- R85: zero, `K`, the two ends of the odd branch, and the wrong-model detectors of section 3.1. -/
theorem test_transform_corners : transform 0 = 0x5555555555555555 ∧ transform 0x5555555555555555 = 0x3B ∧
    transform 0x5555555555555541 = 0xFFFFFFFFFFFFFFC4 ∧ transform 0x8000000000000001 = 0x800000000000003F ∧
    transform 0xFFFFFFFFFFFFFFFF = 0xAF ∧ transform 0xFFFFFFFFFFFFFFC5 = 1 ∧ transform 2 = 0x5555555555555554 := by decide

/-- R85: the generic rows and the inputs above the modulus. -/
theorem test_transform_rows : transform 0x123456789ABCDEF0 = 0x5C4F7E69180B3A2D ∧
    transform 0xFEDCBA9876543211 = 0xFC962FC962FC96AA ∧ transform 0xFFFFFFFFFFFFFFC6 = 0x2AAAAAAAAAAAAAB6 ∧
    transform 0xFFFFFFFFFFFFFFFE = 0x2AAAAAAAAAAAAAAA := by decide

/-- R94. -/
theorem test_rotr3_rows : rotr3 7 = 0xE000000000000000 ∧ rotr3 8 = 1 ∧ rotr3 0x8000000000000000 = 0x1000000000000000 ∧
    rotr3 0x5555555555555555 = 0xAAAAAAAAAAAAAAAA ∧ rotr3 0x123456789ABCDEF0 = 0x02468ACF13579BDE := by decide

/-- X5 to X8 under both tables. -/
theorem test_extract_rows : extract sboxId 0x17 = true ∧ extract sboxEx 0x17 = false ∧
    extract sboxEx 0xFFFFFFFFFFFFFFF0 = false ∧ extract sboxEx 0x8000000016136742 = false ∧
    extract sboxEx 0xD8F0000000084746 = true ∧ extract sboxId 0xD8F0000000084746 = false := by decide

/-- X1 to X3 under `SBOX_EX`. -/
theorem test_readSBox_rows : readSBox sboxEx 0 = 6 ∧ readSBox sboxEx 10 = 5 ∧ readSBox sboxEx 15 = 7 := by decide

/-- R110, draws 1, 3, 4 and 10: the new `State` and the three bits. -/
theorem test_rawDraw_rows :
    rawDraw unboundedEx .canonical 0x3ADE68B1 = (0x8000000016136742, false) ∧
    rawDraw unboundedEx .simplified 0x82AAAAAAABCB9CDE = (0x4280000000161367, true) ∧
    rawDraw unboundedEx .canonical 0x4280000000161367 = (0xD8F0000000084746, true) ∧
    rawDraw ⟨sboxId, .unbounded⟩ .canonical 0x42A167A3FFFFFFFA = (0x0E80BCD095555555, true) := by decide

/-- R120's table. -/
theorem test_vnpair_rows : vnpair false false = (false, false) ∧ vnpair false true = (true, false) ∧
    vnpair true false = (true, true) ∧ vnpair true true = (false, false) := by decide

/-- F1, F4, F5: the source 0, 1 repeated; a budget of 9 wastes its last draw. -/
theorem test_filter_alternating :
    let src := fun k : Nat => (k + 1, k % 2 == 1)
    vnFilter src 0 5 none 6 = some (.done 10 [false, false, false, false, false] 10) ∧
    vnFilter src 0 5 (some 10) 6 = some (.done 10 [false, false, false, false, false] 10) ∧
    vnFilter src 0 5 (some 9) 6 = some (.exhausted 8 8) := by decide

/-- F2, F6, F7: the source 0, 0, 1, 0 repeated. -/
theorem test_filter_discards :
    let src := fun k : Nat => (k + 1, k % 4 == 2)
    vnFilter src 0 5 none 11 = some (.done 20 [true, true, true, true, true] 20) ∧
    vnFilter src 0 5 (some 20) 11 = some (.done 20 [true, true, true, true, true] 20) ∧
    vnFilter src 0 5 (some 19) 11 = some (.exhausted 18 18) := by decide

/-- F3 and F8: a constant source, and length 0 with budget 0. -/
theorem test_filter_constant :
    vnFilter (fun k : Nat => (k + 1, true)) 0 3 (some 24) 13 = some (.exhausted 24 24) ∧
    vnFilter (fun k : Nat => (k + 1, true)) 0 0 (some 0) 1 = some (.done 0 [] 0) := by decide

/-- G25 and G37: the filter over the core's own draw path with `SBOX_EX`. -/
theorem test_filter_core :
    vnFilter (rawDraw unboundedEx .canonical) 0x3ADE68B1 3 none 6 =
      some (.done 0x0E80BCD095555555 [false, true, true] 10) ∧
    vnFilter (rawDraw unboundedEx .canonical) 0xFFFFFFFFFFFFFFFF 1 none 2 =
      some (.done 0xD400000000000016 [false] 2) := by decide

/-- G1's first eight bits read `25` as a number with the first bit highest (R45, R46). -/
theorem test_packBits : packBits [false, false, true, false, false, true, false, true] = 0x25 := by decide

/-- E17: the three fault words. -/
theorem test_faultWords : faultWord .illegalCommand = 0x50000000000000000 ∧ faultWord .notSeeded = 0x60000000000000000 ∧
    faultWord .extractionExhausted = 0x70000000000000000 := by decide

/-! ## One step of the machine -/

/-- E1: `RDSTATUS` after reset. -/
theorem test_step_rdstatus : step (unseededWith 0x80000000000000000) =
    .next { State.reset with rsp := some ⟨0, none⟩ } := rfl

/-- P3 row 7: `XH` stays set and `MODE` reads in bit 1. -/
theorem test_exec_rdstatus : exec .rdstatus { idleAt 0 .simplified [] with xh := true } =
    .next { idleAt 0 .simplified [] with xh := true, rsp := some ⟨7, none⟩ } := rfl

/-- E3: `GENERATE 0` on an unseeded core. -/
theorem test_step_generate_unseeded : step (unseededWith 0x20000000000000000) =
    .next { State.reset with ns := true, rsp := some ⟨0x60000000000000000, none⟩ } := rfl

/-- E8: `IllegalCommand` comes before `NotSeeded`. -/
theorem test_step_priority : step (unseededWith 0x30000000000000001) =
    .next { State.reset with ill := true, rsp := some ⟨0x50000000000000000, none⟩ } := rfl

/-- E14: `LOADSEED 0` clears the sticky flags. -/
theorem test_exec_loadseed : exec (.loadseed 0) { State.reset with ill := true, ns := true } =
    .next { State.reset with state := .value 0, rsp := some ⟨0, none⟩ } := rfl

/-- P1 row 1. -/
theorem test_exec_setmode : exec (.setmode .simplified) State.reset =
    .next { State.reset with mode := .simplified, rsp := some ⟨0, none⟩ } := rfl

/-- E5 and P1 row 4: `RDSTATE` before and after a seed. -/
theorem test_exec_rdstate : exec .rdstate State.reset =
      .next { State.reset with ns := true, rsp := some ⟨0x60000000000000000, none⟩ } ∧
    exec .rdstate (idleAt 0xDE5FC1BEE5918013 .simplified []) =
      .next { idleAt 0xDE5FC1BEE5918013 .simplified [] with rsp := some ⟨0xDE5FC1BEE5918013, none⟩ } := ⟨rfl, rfl⟩

/-- P4 rows 16 and 18, with `SBOX_EX`. -/
theorem test_draw : drawWith unboundedEx (idleAt 0 .canonical []) =
      .next { idleAt 0xAAAAAAAAAAAAAAAA .canonical [] with rsp := some ⟨1, none⟩ } ∧
    drawWith unboundedEx (idleAt 0xAAAAAAAAAAAAAAAA .canonical []) =
      .next { idleAt 0 .canonical [] with rsp := some ⟨0, none⟩ } := ⟨rfl, rfl⟩

/-- R107's example: `DRAW` in simplified mode, on the machine itself. -/
theorem test_draw_simplified : exec .draw (idleAt 987654321 .simplified []) =
    .next { idleAt 0x8000000016136742 .simplified [] with rsp := some ⟨0, none⟩ } := rfl

/-- P4 row 9: `STEP K` needs no seed. -/
theorem test_exec_step : exec (.step 0x5555555555555555) State.reset =
    .next { State.reset with rsp := some ⟨0x3B, none⟩ } := rfl

/-- P4 row 10. -/
theorem test_exec_rotr3 : exec (.rotr3 8) State.reset = .next { State.reset with rsp := some ⟨1, none⟩ } := rfl

/-- P4 row 11 and V3. -/
theorem test_exec_vnpair : exec (.vnpair true false) State.reset = .next { State.reset with rsp := some ⟨3, none⟩ } ∧
    exec (.vnpair false true) State.reset = .next { State.reset with rsp := some ⟨2, none⟩ } := ⟨rfl, rfl⟩

/-- G9: the one draw of a simplified `GENERATE 1` from all ones. -/
theorem test_sequencer_simplified : sequencerWith unboundedEx 1 (runningAt 0xFFFFFFFFFFFFFFFF .simplified 1) =
    .next { runningAt 0xE000000000000015 .simplified 1 with draws := 1, out := [true] } := rfl

/-- R124 row 4 on draw 4 of R110: the pair (0, 1) emits 0. -/
theorem test_sequencer_second : sequencerWith unboundedEx 1
      { runningAt 0x4280000000161367 .canonical 1 with phase := .second, b1 := false, draws := 3 } =
    .next { runningAt 0xD8F0000000084746 .canonical 1 with b1 := false, draws := 4, out := [false] } := rfl

/-- B2: the third row of R124's table at draw 24 of a budget of 24. -/
theorem test_sequencer_exhausted : sequencerWith eightEx 3 { runningAt 0x0A0A0A0A0A0A0A0A .canonical 3 with draws := 24 } =
    .next { idleAt 0x0A0A0A0A0A0A0A0A .canonical [] with xh := true, rsp := some ⟨0x70000000000000000, none⟩ } := rfl

/-- A command presented to a busy core stays on the port (R68). -/
theorem test_step_busy : step { runningAt 0xFFFFFFFFFFFFFFFF .simplified 1 with host := [.command 0x80000000000000000] } =
    .next { runningAt 0xE000000000000015 .simplified 1 with
      draws := 1, out := [true], host := [.command 0x80000000000000000] } := rfl

/-- R203: reset in the middle of a `GENERATE`. -/
theorem test_step_reset : step { runningAt 5 .canonical 9 with phase := .second, draws := 3, host := [.reset] } =
    .next State.reset := rfl

/-- R70, R71: a line of each kind. -/
theorem test_parse_lines :
    parseLine ['S', 'T', 'E', 'P', ' ', '0', 'x', '5', 'F'] = some [.step 0x5F] ∧
    parseLine ['V', 'N', 'P', 'A', 'I', 'R', ' ', '0', ',', ' ', '1', ' ', ';', 'c'] = some [.vnpair false true] ∧
    parseLine ['I', 'N', 'I', 'T', ' ', '7', ',', '1'] = some [.setmode .simplified, .loadseed 7] ∧
    parseLine [';', 'D', 'R', 'A', 'W'] = some [] ∧
    parseLine ['S', 'B', 'O', 'X', 'R', 'D', ' ', '1', '6'] = none := by decide

/-- R151: a wider seed is folded to its low 64 bits. -/
theorem test_foldSeed : foldSeed (2 ^ 64 + 5) = 5 := by decide

/-- Section 3.8: the trap set and the fixed points. -/
theorem test_trap_set : drawMap 2 = 0x8AAAAAAAAAAAAAAA ∧ drawMap^[2] 2 = 0x0200000000000000 ∧
    drawMap 0x4C08C44A8EEC8082 = 0x8E6A26EE024462A2 ∧ drawMap 0xE4E4E4E4E4E4E4E4 = 0xE4E4E4E4E4E4E4E4 ∧
    drawMap 0x1AC5701AC5701AC5 = 0x0A0A0A0A0A0A0A0A := by decide

/-! ## Witnesses: for each statement with hypotheses, an input that meets them -/

/-- A seeded idle core meets the invariant, whatever its host does. -/
theorem idleAt_inv (v : Word) (mode : Mode) (host : List HostMove) : (idleAt v mode host).Inv where
  idle_clean _ := ⟨rfl, rfl, rfl⟩
  unseeded_idle h := by cases h
  no_partial _ h := by cases h
  plain_counts _ h := by cases h
  first_counts _ h := by cases h
  second_counts _ h := by cases h
  rsp_formed _ h := by cases h

/-- So does an unseeded one with a command presented. -/
theorem unseededWith_inv (w : CmdWord) : (unseededWith w).Inv where
  idle_clean _ := ⟨rfl, rfl, rfl⟩
  unseeded_idle _ := ⟨rfl, rfl⟩
  no_partial _ h := by cases h
  plain_counts _ h := by cases h
  first_counts _ h := by cases h
  second_counts _ h := by cases h
  rsp_formed _ h := by cases h

/-- So does a `GENERATE` just begun, in both modes. -/
theorem runningAt_inv (v : Word) (mode : Mode) (length : Word) : (runningAt v mode length).Inv where
  idle_clean h := by cases h
  unseeded_idle h := by cases h
  no_partial _ _ := rfl
  plain_counts _ _ _ := ⟨rfl, rfl, Nat.zero_le _⟩
  first_counts _ _ _ _ := ⟨rfl, Nat.le_refl _, Nat.zero_le _, fun _ _ => Nat.zero_le _⟩
  second_counts _ _ _ h := by cases h
  rsp_formed _ h := by cases h

/-- And a canonical `GENERATE` between the two draws of its first pair: every multiplier is at least 2, so both fit. -/
theorem second_inv : { runningAt 5 .canonical 1 with phase := .second, draws := 1 }.Inv where
  idle_clean h := by cases h
  unseeded_idle h := by cases h
  no_partial _ _ := rfl
  plain_counts _ _ h := by cases h
  first_counts _ _ _ h := by cases h
  second_counts n h _ _ := by
    cases h
    refine ⟨rfl, Nat.le_refl _, by decide, fun b hb => ?_⟩
    cases hm : Config.budgetMult with
    | unbounded => rw [hm] at hb; cases hb
    | finite m h2 =>
      rw [hm] at hb
      cases hb
      simpa using h2
  rsp_formed _ h := by cases h

theorem witness_EncodeOfDecodedWordIsTheWord : decode 0x9000000000000000F = .ok (.sboxrd 15) := by decide

theorem witness_DecoderAcceptsExactlyTheTableWords :
    wellFormed 0xA0000000000000003 = true ∧ ∃ r ∈ opcodeRows, r.covers 0xA0000000000000003 = true := by decide

/-- Every case of `op`, the reserved ones at both ends; where the operand is bounded, its last value and the first above. -/
theorem witness_DecodeIsTheSpecsCaseTable :
    ((0xB : Nibble).toNat = 0xB ∧ (0xF : Nibble).toNat = 0xF) ∧
    decode ((0x1 : Nibble) ++ (1 : Word)) = .ok (.setmode .simplified) ∧ decode ((0x1 : Nibble) ++ (2 : Word)) = .error .reservedArg ∧
    decode ((0x9 : Nibble) ++ (15 : Word)) = .ok (.sboxrd 15) ∧ decode ((0x9 : Nibble) ++ (16 : Word)) = .error .reservedArg ∧
    decode ((0xA : Nibble) ++ (3 : Word)) = .ok (.vnpair true true) ∧ decode ((0xA : Nibble) ++ (4 : Word)) = .error .reservedArg := by decide

theorem witness_StepRunsTheDecodedInstruction :
    (unseededWith 0x30000000000000000).activity = .idle ∧
    (unseededWith 0x30000000000000000).host = [.command 0x30000000000000000] ∧
    decode 0x30000000000000000 = .ok .draw := by decide

/-- The clauses of the condition, each at its first value; and a word outside it. -/
theorem witness_IllegalWordRaisesIllegalCommandOnly :
    (unseededWith ((0xB : Nibble) ++ (0 : Word))).Inv ∧
    (unseededWith ((0xB : Nibble) ++ (0 : Word))).activity = .idle ∧
    (unseededWith ((0xB : Nibble) ++ (0 : Word))).host = .command ((0xB : Nibble) ++ (0 : Word)) :: [] ∧
    (0xB ≤ (0xB : Nibble).toNat ∧ 2 ≤ (2 : Word).toNat ∧ 16 ≤ (16 : Word).toNat ∧ 4 ≤ (4 : Word).toNat ∧ (1 : Word) ≠ 0) ∧
    ¬ 0xB ≤ (0xA : Nibble).toNat ∧ ¬ 4 ≤ (3 : Word).toNat :=
  ⟨unseededWith_inv _, rfl, rfl, by decide, by decide, by decide⟩

/-- A busy core with a command on its port, and the next state it has. -/
theorem witness_BusyCoreDoesNotAcceptACommand :
    ∃ s : State, s.activity = .generating 1 ∧ s.host = [.command 0x80000000000000000] ∧ ∃ t, step s = .next t :=
  ⟨_, rfl, rfl, _, test_step_busy⟩

theorem witness_ResetAbandonsWhateverExecutes :
    { runningAt 5 .canonical 9 with host := [HostMove.reset, .wait] }.host = .reset :: [.wait] := rfl

/-- A run of two commands from reset that gives a next state. -/
theorem witness_ResetStateIsTheSpecs :
    ∃ t, Sys2Proof.core.run 2 { State.reset with
      host := [.command 0x00000000000000005, .command 0x80000000000000000] } = .next t := ⟨_, rfl⟩

theorem witness_IdleCoreKeepsItsState : (idleAt 5 .canonical []).activity = .idle ∧
    (idleAt 5 .canonical []).host = [] ∧ (idleAt 5 .canonical [.wait]).host = .wait :: [] := by decide

theorem witness_RunWithSilentHostIsTheCoresRun : (runningAt 5 .canonical 2).host = [] := rfl

/-- Both outcomes: a `GENERATE` on a seeded core, and another word. -/
theorem witness_AcceptedWordRespondsAtOnceOrGenerates :
    (idleAt 5 .canonical [.command 0x20000000000000002]).activity = .idle ∧
    (idleAt 5 .canonical [.command 0x20000000000000002]).host = .command 0x20000000000000002 :: [] ∧
    (idleAt 5 .canonical [.command 0x20000000000000002]).seeded = true ∧
    decode 0x20000000000000002 = .ok (.generate 2) ∧ decode 0xB0000000000000000 = .error .reservedOp := by decide

/-- The two branches at their ends (R85). -/
theorem witness_StepRespondsTheStateTransform : (0xFFFFFFFFFFFFFFFE : Word).toNat % 2 = 0 ∧
    (0xFFFFFFFFFFFFFFFF : Word).toNat % 2 = 1 ∧ (0 : Word).toNat % 2 = 0 ∧ (1 : Word).toNat % 2 = 1 := by decide

/-- The quotient 3 begins at `M`, with `d` = 0 (R82). -/
theorem witness_TransformBranchesHaveTheirRanges : (0xFFFFFFFFFFFFFFC4 : Word).getLsbD 0 = false ∧
    (0xFFFFFFFFFFFFFFC5 : Word).getLsbD 0 = true ∧ (0xFFFFFFFFFFFFFFC5 : Word).toNat = 2 ^ 64 - 59 + 0 ∧
    (0xFFFFFFFFFFFFFFFF : Word).toNat = 2 ^ 64 - 59 + 58 := by decide

theorem witness_SboxrdRespondsTheEntry : (15 : Nat) < 16 ∧ 16 ≤ (16 : Word).toNat := by decide

/-- Both modes. -/
theorem witness_DrawAdvancesStateAndRespondsTheRawBit :
    (idleAt 5 .canonical []).state = .value 5 ∧ (idleAt 5 .canonical []).mode = .canonical ∧
    (idleAt 5 .simplified []).state = .value 5 ∧ (idleAt 5 .simplified []).mode = .simplified := by decide

theorem witness_SetmodeWritesTheMode : 2 ≤ (2 : Word).toNat := by decide

/-- Seeded, unseeded, and a word with a reserved bit. -/
theorem witness_RdstateRespondsTheState : (idleAt 5 .canonical []).state = .value 5 ∧ State.reset.state = .noValue ∧
    (1 : Word) ≠ 0 := by decide

theorem witness_RdstatusRespondsTheFiveBits : (0x8000000000000000 : Word) ≠ 0 ∧ 5 ≤ 63 := by decide

theorem witness_VnpairRespondsTheDecision : 4 ≤ (4 : Word).toNat ∧ (vnpair true false).1 = true := by decide

/-- An unseeded core of the invariant; and an operation that needs no seed. -/
theorem witness_OnlyStateReadersRaiseNotSeeded :
    (unseededWith 0x30000000000000000).Inv ∧ (unseededWith 0x30000000000000000).state = .noValue ∧
    Instr.generate 0 ∈ [Instr.draw, .generate 0, .rdstate] ∧
    Instr.rdstatus ≠ .draw ∧ Instr.rdstatus ≠ .rdstate ∧ ∀ n, Instr.rdstatus ≠ .generate n :=
  ⟨unseededWith_inv _, rfl, by decide, by decide, by decide, fun _ h => by cases h⟩

theorem witness_OperandOperationsIgnoreTheCore : ∃ x, Instr.extract 0x17 = .extract x := ⟨_, rfl⟩

/-- A core with the three flags set that reads its status. -/
theorem witness_StickyFlagsStaySet :
    ∃ s t : State, step s = .next t ∧ s.xh = true ∧ s.ill = true ∧ s.ns = true ∧ (∀ rest, s.host ≠ .reset :: rest) ∧
      ∀ w rest seed, s.activity = .idle → s.host = .command w :: rest → decode w ≠ .ok (.loadseed seed) := by
  refine ⟨{ unseededWith 0x80000000000000000 with xh := true, ill := true, ns := true }, _, rfl, rfl, rfl, rfl,
    fun _ h => (by cases h), ?_⟩
  intro w rest seed _ h
  cases h
  rw [test_decode_rdstatus]
  exact fun h => by cases h

/-- A core that accepts a `DRAW` without a seed. -/
theorem witness_StickyFlagsGateNothing :
    ∃ s t : State, step s = .next t ∧
      ∀ w rest, s.activity = .idle → s.host = .command w :: rest → decode w ≠ .ok .rdstatus := by
  refine ⟨unseededWith 0x30000000000000000, _, rfl, ?_⟩
  intro w rest _ h
  cases h
  decide

/-- A `SETMODE 1` and a reset, each of which changes the mode. -/
theorem witness_ModeChangesBySetmodeOrResetOnly :
    (∃ t, step (unseededWith 0x10000000000000001) = .next t ∧ t.mode ≠ (unseededWith 0x10000000000000001).mode) ∧
    ∃ t, step (idleAt 5 .simplified [.reset]) = .next t ∧ t.mode ≠ (idleAt 5 .simplified [.reset]).mode :=
  ⟨⟨_, rfl, by decide⟩, _, rfl, by decide⟩

/-- A reset, a `LOADSEED`, a `DRAW` and a draw of a `GENERATE`, each of which changes `State`. -/
theorem witness_StateIsWrittenBySeedAndDrawsOnly :
    (∃ t, step (idleAt 5 .canonical [.reset]) = .next t ∧ t.state ≠ .value 5) ∧
    (∃ t, step (unseededWith 0x00000000000000005) = .next t ∧ t.state ≠ .noValue) ∧
    (∃ t, step (idleAt 5 .simplified [.command 0x30000000000000000]) = .next t ∧ t.state ≠ .value 5) ∧
    ∃ t, step (runningAt 5 .simplified 2) = .next t ∧ t.state ≠ .value 5 :=
  ⟨⟨_, rfl, by decide⟩, ⟨_, rfl, by decide⟩, ⟨_, rfl, by decide⟩, _, rfl, by decide⟩

theorem witness_LatchIsWrittenBeforeItIsRead :
    (runningAt 5 .simplified 2).phase = .first ∧ ∃ t, step (runningAt 5 .simplified 2) = .next t := ⟨rfl, _, rfl⟩

/-- A draw of a `GENERATE`, from a state of the invariant. -/
theorem witness_EveryStepKeepsTheInvariant :
    (runningAt 5 .simplified 2).Inv ∧ ∃ t, step (runningAt 5 .simplified 2) = .next t := ⟨runningAt_inv _ _ _, _, rfl⟩

theorem witness_MachineNeverStops : { runningAt 5 .canonical 1 with phase := .second, draws := 1 }.Inv := second_inv

/-- The four rows: complete, exhausted, first draw, second draw. -/
theorem witness_SequencerFollowsItsTable :
    (runningAt 5 .canonical 0).activity = .generating 0 ∧ (runningAt 5 .canonical 0).mode = .canonical ∧
    (runningAt 5 .canonical 0).state = .value 5 ∧
    ((runningAt 5 .canonical 0).phase = .first ∧ (runningAt 5 .canonical 0).out.length = (0 : Word).toNat) ∧
    ((runningAt 5 .canonical 1).phase = .first ∧ (runningAt 5 .canonical 1).out.length < (1 : Word).toNat ∧
      8 * (1 : Word).toNat < { runningAt 5 .canonical 1 with draws := 8 }.draws + 2 ∧
      { runningAt 5 .canonical 1 with draws := 6 }.draws + 2 ≤ 8 * (1 : Word).toNat) ∧
    { runningAt 5 .canonical 1 with phase := .second, draws := 1 }.phase = .second := by decide

theorem witness_GenerateZeroDrawsNothing :
    (idleAt 5 .canonical []).state = .value 5 ∧ HostQuiet (idleAt 5 .canonical []).host := ⟨rfl, .inl rfl⟩

/-- With a silent host, and with the next command already presented. -/
theorem witness_SimplifiedGenerateEmitsEveryRawBit :
    (idleAt 5 .simplified []).state = .value 5 ∧ (idleAt 5 .simplified []).mode = .simplified ∧
    HostQuiet (idleAt 5 .simplified []).host ∧
    HostQuiet (idleAt 5 .simplified [.command 0x80000000000000000]).host :=
  ⟨rfl, rfl, .inl rfl, .inr ⟨_, _, rfl⟩⟩

/-- G37 is done; B2 is exhausted. -/
theorem witness_CanonicalGenerateRunsTheFilter :
    (idleAt 0xFFFFFFFFFFFFFFFF .canonical []).mode = .canonical ∧
    vnFilter (rawDraw unboundedEx .canonical) 0xFFFFFFFFFFFFFFFF 1 (drawBudget unboundedEx.budgetMult 1) 2 =
      some (.done 0xD400000000000016 [false] 2) ∧
    vnFilter (rawDraw eightEx .canonical) 0x0A0A0A0A0A0A0A0A 3 (drawBudget eightEx.budgetMult 3) 13 =
      some (.exhausted 0x0A0A0A0A0A0A0A0A 24) := by decide

/-- B3: a fixed point with no bound. -/
theorem witness_GenerateHangsWhereTheFilterDoes :
    (idleAt 0x0A0A0A0A0A0A0A0A .canonical []).rsp = none ∧
    ∀ fuel, vnFilter (rawDraw unboundedEx .canonical) 0x0A0A0A0A0A0A0A0A 3
      (drawBudget unboundedEx.budgetMult 3) fuel = none := by
  refine ⟨rfl, fun fuel => ?_⟩
  have loop : ∀ draws, vnFilterLoop (rawDraw unboundedEx .canonical) 3 none fuel 0x0A0A0A0A0A0A0A0A [] draws = none := by
    induction fuel with
    | zero => exact fun _ => rfl
    | succ fuel ih =>
      have pair : rawDraw unboundedEx .canonical 0x0A0A0A0A0A0A0A0A = (0x0A0A0A0A0A0A0A0A, true) := by decide
      intro draws
      rw [vnFilterLoop_succ]
      simp only [pair, overBudget_none, ne_eq, not_true_eq_false, if_false]
      exact ih _
  exact loop 0

/-- F6 is done; F7 is exhausted. -/
theorem witness_FilterCounts :
    vnFilter (fun k : Nat => (k + 1, k % 4 == 2)) 0 5 (some 20) 11 = some (.done 20 [true, true, true, true, true] 20) ∧
    vnFilter (fun k : Nat => (k + 1, k % 4 == 2)) 0 5 (some 19) 11 = some (.exhausted 18 18) := by decide

/-- Each of the three reasons, with a transition that goes on. -/
theorem witness_ExhaustionNeedsABoundModeZeroAndALength :
    unboundedEx.budgetMult = .unbounded ∧ (∃ t, advanceWith unboundedEx (runningAt 5 .canonical 2) = .next t) ∧
    (runningAt 5 .simplified 2).mode = .simplified ∧ (∃ t, advanceWith eightEx (runningAt 5 .simplified 2) = .next t) ∧
    (runningAt 5 .canonical 0).out.length ≤ (0 : Word).toNat ∧
    (∃ t, advanceWith eightEx (runningAt 5 .canonical 0) = .next t) :=
  ⟨rfl, ⟨_, rfl⟩, rfl, ⟨_, rfl⟩, by decide, ⟨_, rfl⟩⟩

/-- A draw, and a completion. -/
theorem witness_NoPartialResults :
    (runningAt 5 .simplified 2).Inv ∧ (runningAt 5 .simplified 2).activity = .generating 2 ∧
    (∀ rest, (runningAt 5 .simplified 2).host ≠ .reset :: rest) ∧ (∃ t, step (runningAt 5 .simplified 2) = .next t) ∧
    ∃ t, step (runningAt 5 .simplified 0) = .next t :=
  ⟨runningAt_inv _ _ _, rfl, fun _ h => (by cases h), ⟨_, rfl⟩, _, rfl⟩

/-- Two bits, then one under its tightest budget, and three at once; and the longest total of two lengths. -/
theorem witness_GenerationContinues :
    vnFilter (fun k : Nat => (k + 1, k % 4 == 2)) 0 2 none 5 = some (.done 8 [true, true] 8) ∧
    vnFilter (fun k : Nat => (k + 1, k % 4 == 2)) 8 1 (some 4) 3 = some (.done 12 [true] 4) ∧
    vnFilter (fun k : Nat => (k + 1, k % 4 == 2)) 0 (2 + 1) none 7 = some (.done 12 [true, true, true] 12) ∧
    (idleAt 5 .simplified []).state = .value 5 ∧ (idleAt 5 .simplified []).mode = .simplified ∧
    (2 : Word).toNat + (0xFFFFFFFFFFFFFFFD : Word).toNat < 2 ^ 64 := by decide

/-- No bound, and the tightest bound. -/
theorem witness_FilterOnSyntheticSources : withinBudget none (2 * 5) ∧ withinBudget (some 10) (2 * 5) ∧
    withinBudget (some 20) (4 * 5) :=
  ⟨fun _ h => (by cases h), fun _ h => (by cases h; decide), fun _ h => (by cases h; decide)⟩

theorem witness_InitLeavesAFreshInstance :
    (idleAt 5 .canonical (presentProgram (pseudoInit 7 .simplified))).activity = .idle ∧
    (idleAt 5 .canonical (presentProgram (pseudoInit 7 .simplified))).host =
      [.command 0x10000000000000001, .command 0x00000000000000007] := by decide

theorem witness_TrapSetIsClosed : InTrapSet 2 ∧ (2 : Word).getLsbD 0 = false := by unfold InTrapSet; decide

/-- The first and the last `k` of the range. -/
theorem witness_TrapSetOrbit : InTrapSet 0x4C08C44A8EEC8082 ∧ (0 < 1 ∧ 1 ≤ 15) ∧ (0 < 15 ∧ 15 ≤ 15) := by
  unfold InTrapSet; decide

/-- A step of a core in the trap set that is no reset and no `LOADSEED`. -/
theorem witness_TrapSetIsNeverLeft :
    InTrapSet 2 ∧ ∃ s t : State, s.state = .value 2 ∧ step s = .next t ∧ (∀ rest, s.host ≠ .reset :: rest) ∧
      ∀ w rest seed, s.activity = .idle → s.host = .command w :: rest → decode w ≠ .ok (.loadseed seed) := by
  refine ⟨by unfold InTrapSet; decide, idleAt 2 .simplified [.command 0x30000000000000000], _, rfl, rfl,
    fun _ h => (by cases h), ?_⟩
  intro w rest seed _ h
  cases h
  rw [test_decode_draw]
  exact fun h => by cases h

theorem witness_EvenFixedPointsOfTheDraw :
    (0x0A0A0A0A0A0A0A0A : Word).getLsbD 0 = false ∧ drawMap 0x0A0A0A0A0A0A0A0A = 0x0A0A0A0A0A0A0A0A := by decide

/-- P3 command 2, with the bound 8 and with none. -/
theorem witness_FixedPointsNeverYieldABit :
    (idleAt 0x0A0A0A0A0A0A0A0A .canonical []).state = .value 0x0A0A0A0A0A0A0A0A ∧
    drawMap 0x0A0A0A0A0A0A0A0A = 0x0A0A0A0A0A0A0A0A ∧ (3 : Word) ≠ 0 ∧
    eightEx.budgetMult = .finite 8 (by decide) ∧ unboundedEx.budgetMult = .unbounded := by decide

theorem witness_TrapSetGivesZerosInSimplifiedMode :
    (idleAt 2 .simplified []).state = .value 2 ∧ InTrapSet 2 ∧ (idleAt 2 .simplified []).mode = .simplified ∧
    HostQuiet (idleAt 2 .simplified []).host :=
  ⟨rfl, by unfold InTrapSet; decide, rfl, .inl rfl⟩

end Sys2Proof.Tests
end

section
/-!
SUPPORT. The decoder as one equation per `op` (spec/30_encoding.md R66), which fields make a word illegal (R64, R65), and what
an illegal word does to an idle core (spec/60_exceptions.md R172).
-/

namespace Sys2Proof.Machine

/-! ### The decoder, one equation per `op` -/

theorem decode_op_loadseed (arg : Word) : decode ((0x0 : Nibble) ++ arg) = .ok (.loadseed arg) := by
  simp [decode]

theorem decode_op_setmode (arg : Word) :
    decode ((0x1 : Nibble) ++ arg) = whenZero (arg.extractLsb' 1 63) (.setmode (.ofBit (arg.getLsbD 0))) := by
  simp [decode]

theorem decode_op_generate (arg : Word) : decode ((0x2 : Nibble) ++ arg) = .ok (.generate arg) := by
  simp [decode]

theorem decode_op_draw (arg : Word) : decode ((0x3 : Nibble) ++ arg) = whenZero arg .draw := by
  simp [decode]

theorem decode_op_step (arg : Word) : decode ((0x4 : Nibble) ++ arg) = .ok (.step arg) := by
  simp [decode]

theorem decode_op_rotr3 (arg : Word) : decode ((0x5 : Nibble) ++ arg) = .ok (.rotr3 arg) := by
  simp [decode]

theorem decode_op_extract (arg : Word) : decode ((0x6 : Nibble) ++ arg) = .ok (.extract arg) := by
  simp [decode]

theorem decode_op_rdstate (arg : Word) : decode ((0x7 : Nibble) ++ arg) = whenZero arg .rdstate := by
  simp [decode]

theorem decode_op_rdstatus (arg : Word) : decode ((0x8 : Nibble) ++ arg) = whenZero arg .rdstatus := by
  simp [decode]

theorem decode_op_sboxrd (arg : Word) :
    decode ((0x9 : Nibble) ++ arg) = whenZero (arg.extractLsb' 4 60) (.sboxrd (arg.extractLsb' 0 4)) := by
  simp [decode]

theorem decode_op_vnpair (arg : Word) :
    decode ((0xA : Nibble) ++ arg) = whenZero (arg.extractLsb' 2 62) (.vnpair (arg.getLsbD 0) (arg.getLsbD 1)) := by
  simp [decode]

theorem decode_op_reserved {op : Nibble} (h : 0xB ≤ op.toNat) (arg : Word) :
    decode (op ++ arg) = .error .reservedOp := by
  rw [decode, opField_append]
  split
  case h_12 => rfl
  all_goals omega

/-- An `op` is one of the eleven of the opcode map (spec/30_encoding.md R63) or reserved (R64). -/
theorem op_cases (op : Nibble) :
    op = 0x0 ∨ op = 0x1 ∨ op = 0x2 ∨ op = 0x3 ∨ op = 0x4 ∨ op = 0x5 ∨ op = 0x6 ∨ op = 0x7 ∨ op = 0x8 ∨ op = 0x9 ∨
      op = 0xA ∨ 0xB ≤ op.toNat := by
  revert op
  decide

/-! ### Which words are illegal -/

/-- The fields of an illegal word: a reserved `op`, or an `arg` with a reserved bit that is not 0 (spec/30_encoding.md R64,
R65). -/
def IllegalFields (op : Nibble) (arg : Word) : Prop :=
  0xB ≤ op.toNat ∨ (op = 0x1 ∧ 2 ≤ arg.toNat) ∨ (op = 0x9 ∧ 16 ≤ arg.toNat) ∨ (op = 0xA ∧ 4 ≤ arg.toNat) ∨
    ((op = 0x3 ∨ op = 0x7 ∨ op = 0x8) ∧ arg ≠ 0)

/-- Strict decoding gives an operation exactly when the reserved field is 0. -/
theorem exists_whenZero_eq_ok {n : Nat} {r : BitVec n} {i : Instr} : (∃ j, whenZero r i = .ok j) ↔ r = 0 := by
  simp [whenZero_eq_ok]

/-- The words that decode to an operation are those without illegal fields. -/
theorem exists_decode_eq_ok_iff (op : Nibble) (arg : Word) :
    (∃ i, decode (op ++ arg) = .ok i) ↔ ¬ IllegalFields op arg := by
  rcases op_cases op with rfl | rfl | rfl | rfl | rfl | rfl | rfl | rfl | rfl | rfl | rfl | hop
  · exact iff_of_true ⟨_, decode_op_loadseed arg⟩ (by simp [IllegalFields])
  · rw [decode_op_setmode, exists_whenZero_eq_ok, reserved_eq_zero_iff rfl]
    simp [IllegalFields]
  · exact iff_of_true ⟨_, decode_op_generate arg⟩ (by simp [IllegalFields])
  · rw [decode_op_draw, exists_whenZero_eq_ok]
    simp [IllegalFields]
  · exact iff_of_true ⟨_, decode_op_step arg⟩ (by simp [IllegalFields])
  · exact iff_of_true ⟨_, decode_op_rotr3 arg⟩ (by simp [IllegalFields])
  · exact iff_of_true ⟨_, decode_op_extract arg⟩ (by simp [IllegalFields])
  · rw [decode_op_rdstate, exists_whenZero_eq_ok]
    simp [IllegalFields]
  · rw [decode_op_rdstatus, exists_whenZero_eq_ok]
    simp [IllegalFields]
  · rw [decode_op_sboxrd, exists_whenZero_eq_ok, reserved_eq_zero_iff rfl]
    simp [IllegalFields]
  · rw [decode_op_vnpair, exists_whenZero_eq_ok, reserved_eq_zero_iff rfl]
    simp [IllegalFields]
  · simp [decode_op_reserved hop, IllegalFields, hop]

/-- The decoder refuses every word with illegal fields. -/
theorem exists_decode_eq_error {op : Nibble} {arg : Word} (h : IllegalFields op arg) :
    ∃ e, decode (op ++ arg) = .error e := by
  cases hd : decode (op ++ arg) with
  | error e => exact ⟨e, rfl⟩
  | ok i => exact absurd h ((exists_decode_eq_ok_iff op arg).1 ⟨i, hd⟩)

/-- The decoder reads one operation from every other word. -/
theorem existsUnique_decode_eq_ok {op : Nibble} {arg : Word} (h : ¬ IllegalFields op arg) :
    ∃! i, decode (op ++ arg) = .ok i := by
  obtain ⟨i, hi⟩ := (exists_decode_eq_ok_iff op arg).2 h
  exact ⟨i, hi, fun j hj => Except.ok.inj (hj.symm.trans hi)⟩

/-! ### What an illegal word does -/

/-- An idle core that accepts an illegal word sets `STATUS.ILL` and responds with the fault. The invariant has the sequencer's
control state clean already, so its return to idle changes nothing. -/
theorem step_illegal {s : State} {w : CmdWord} {rest : List HostMove} {e : Illegal} (hs : s.Inv)
    (ha : s.activity = .idle) (hh : s.host = .command w :: rest) (hw : decode w = .error e) :
    step s = .next { s with ill := true, rsp := some ⟨faultWord .illegalCommand, none⟩, host := rest } := by
  have hidle : (takeCommand rest s).activity = .idle := ha
  have hclean := hs.idle_clean ha
  rw [step_accept ha hh, runWord_illegal hw, raiseFault_clean .illegalCommand hidle hclean]
  rfl

/-- Settles O9: illegal fields are exactly what the decoder refuses, and a refused word only raises `IllegalCommand`. -/
theorem illegalWordRaisesIllegalCommandOnly : Obligations.IllegalWordRaisesIllegalCommandOnly := by
  unfold Obligations.IllegalWordRaisesIllegalCommandOnly
  intro op arg
  split
  case isTrue h =>
    intro s rest hs ha hh
    obtain ⟨e, he⟩ := exists_decode_eq_error h
    exact step_illegal hs ha hh he
  case isFalse h => exact existsUnique_decode_eq_ok h

end Sys2Proof.Machine
end

section
/-!
SUPPORT. The state transform in natural arithmetic (spec/40_state_transformer.md R80) and what `STEP` does to the core (R84).
-/

namespace Sys2Proof.Machine

/-- Half of an even operand XORed with `K` (R80), the operation on words read as the one on naturals. -/
theorem transform_even_toNat {x : Word} (h : x.getLsbD 0 = false) :
    (transform x).toNat = Nat.xor (x.toNat / 2) 0x5555555555555555 := by
  have halve : (x >>> 1).toNat = x.toNat / 2 := by
    rw [BitVec.toNat_ushiftRight, Nat.shiftRight_one]
  rw [transform_even h, BitVec.toNat_xor, halve]
  rfl

/-- `STEP x` writes the response and no other field of the core (R84). -/
theorem exec_step (x : Word) (s : State) :
    exec (.step x) s = .next { s with rsp := some ⟨okWord (transform x), none⟩ } := rfl

/-- Settles O17: the response data is `transform x`, whose two branches are those of R80, and every `0x4 ++ x` decodes. -/
theorem stepRespondsTheStateTransform : Obligations.StepRespondsTheStateTransform := by
  unfold Obligations.StepRespondsTheStateTransform
  intro x s
  refine ⟨decode_op_step x, transform x, exec_step x s, fun heven => ?_, fun hodd => ?_⟩
  · exact transform_even_toNat ((even_iff x).2 heven)
  · exact transform_odd ((odd_iff x).2 hodd)

end Sys2Proof.Machine
end

section
/-!
SUPPORT. Rotations bit by bit (spec/00_scope.md R11): full turns give the word back, so `rotr3` has an inverse and a period
(spec/41_rotator.md R91, R92), and what `ROTR3` does to the core (R93).
-/

namespace Sys2Proof.Machine

/-! ### Rotations of a word -/

/-- Below bit 64 the rotated word reads the operand with no guard. -/
theorem rotr3_getLsbD_of_lt (x : Word) {i : Nat} (hi : i < 64) : (rotr3 x).getLsbD i = x.getLsbD ((i + 3) % 64) := by
  rw [rotr3_getLsbD, decide_eq_true hi, Bool.true_and]

/-- A left rotation is the right rotation by the rest of the circle. -/
theorem rotl64_eq_rotr64 (x : Word) {n : Nat} (hn : n ≤ 64) : rotl64 x n = rotr64 x (64 - n) := by
  rw [rotl64, rotr64, Nat.sub_sub_self hn, BitVec.or_comm]

/-- Two right rotations that make a full turn give the word back. -/
theorem rotr64_rotr64_of_add_eq (x : Word) {m n : Nat} (hm : 0 < m) (hn : 0 < n) (h : m + n = 64) :
    rotr64 (rotr64 x m) n = x := by
  apply BitVec.eq_of_getLsbD_eq
  intro i hi
  have turn : ((i + n) % 64 + m) % 64 = i := by omega
  have inRange : (i + n) % 64 < 64 := Nat.mod_lt _ (by decide)
  rw [rotr64_getLsbD _ hn (by omega), rotr64_getLsbD _ hm (by omega), turn, decide_eq_true hi, decide_eq_true inRange,
    Bool.true_and, Bool.true_and]

/-- `k` rotations by 3 are one by `3 * k`. -/
theorem rotr3_iterate_getLsbD (x : Word) (k : Nat) {i : Nat} (hi : i < 64) :
    (rotr3^[k] x).getLsbD i = x.getLsbD ((i + 3 * k) % 64) := by
  induction k generalizing x with
  | zero => rw [Function.iterate_zero_apply, Nat.mul_zero, Nat.add_zero, Nat.mod_eq_of_lt hi]
  | succ k ih =>
    have shift : ((i + 3 * k) % 64 + 3) % 64 = (i + 3 * (k + 1)) % 64 := by omega
    rw [Function.iterate_succ_apply, ih, rotr3_getLsbD_of_lt x (Nat.mod_lt _ (by decide)), shift]

/-- 64 rotations by 3 are three full turns. -/
theorem rotr3_iterate_sixtyFour (x : Word) : rotr3^[64] x = x := by
  apply BitVec.eq_of_getLsbD_eq
  intro i hi
  have turns : (i + 3 * 64) % 64 = i := by omega
  rw [rotr3_iterate_getLsbD x 64 hi, turns]

/-! ### The bits of `rotr3` -/

/-- The two parts that `rotr3` joins have no 1 bit in common. -/
theorem rotr3_parts_disjoint (x : Word) : (x >>> 3) &&& (x <<< 61) = 0 := by
  apply BitVec.eq_of_getLsbD_eq
  intro i hi
  refine Eq.trans ?_ BitVec.getLsbD_zero.symm
  rw [BitVec.getLsbD_and, BitVec.getLsbD_ushiftRight, BitVec.getLsbD_shiftLeft]
  by_cases h : i < 61
  · rw [decide_eq_true h, Bool.not_true, Bool.and_false, Bool.false_and, Bool.and_false]
  · rw [BitVec.getLsbD_of_ge x (3 + i) (by omega), Bool.false_and]

/-- Bits 2 to 0 of the operand stand above its bits 63 to 3. -/
theorem rotr3_eq_append (x : Word) : rotr3 x = x.extractLsb' 0 3 ++ x.extractLsb' 3 61 := by
  apply BitVec.eq_of_getLsbD_eq
  intro i hi
  rw [rotr3_getLsbD_of_lt x hi]
  refine Eq.trans ?_ BitVec.getLsbD_append.symm
  split
  case isTrue h =>
    have down : (i + 3) % 64 = 3 + i := by omega
    rw [BitVec.getLsbD_extractLsb', decide_eq_true h, Bool.true_and, down]
  case isFalse h =>
    have wrapped : (i + 3) % 64 = 0 + (i - 61) := by omega
    have top : i - 61 < 3 := by omega
    rw [BitVec.getLsbD_extractLsb', decide_eq_true top, Bool.true_and, wrapped]

theorem rotr3_xor (a b : Word) : rotr3 (a ^^^ b) = rotr3 a ^^^ rotr3 b := by
  apply BitVec.eq_of_getLsbD_eq
  intro i hi
  simp only [BitVec.getLsbD_xor, rotr3_getLsbD_of_lt _ hi]

theorem rotr3_and (a b : Word) : rotr3 (a &&& b) = rotr3 a &&& rotr3 b := by
  apply BitVec.eq_of_getLsbD_eq
  intro i hi
  simp only [BitVec.getLsbD_and, rotr3_getLsbD_of_lt _ hi]

theorem rotr3_or (a b : Word) : rotr3 (a ||| b) = rotr3 a ||| rotr3 b := by
  apply BitVec.eq_of_getLsbD_eq
  intro i hi
  simp only [BitVec.getLsbD_or, rotr3_getLsbD_of_lt _ hi]

theorem lowNibble_rotr3 (x : Word) : lowNibble (rotr3 x) = x.extractLsb' 3 4 := by
  apply BitVec.eq_of_getLsbD_eq
  intro i hi
  have down : (i + 3) % 64 = 3 + i := by omega
  rw [lowNibble_getLsbD, rotr3_getLsbD_of_lt x (by omega), BitVec.getLsbD_extractLsb', down]

/-- The shift of the indices by 3 around the circle carries the 1 bits of `rotr3 x` to those of `x`. -/
theorem rotr3_card_ones (x : Word) :
    (Finset.univ.filter fun i : Fin 64 => (rotr3 x).getLsbD i = true).card =
      (Finset.univ.filter fun i : Fin 64 => x.getLsbD i = true).card := by
  refine Finset.card_equiv (Equiv.addRight 3) fun i => ?_
  have index : (Equiv.addRight (3 : Fin 64) i).val = (i.val + 3) % 64 := Fin.val_add i 3
  rw [Finset.mem_filter_univ, Finset.mem_filter_univ, index, rotr3_getLsbD_of_lt x i.isLt]

/-! ### The operation and the obligations -/

/-- `ROTR3 x` writes the response and no other field of the core (R93). -/
theorem exec_rotr3 (x : Word) (s : State) :
    exec (.rotr3 x) s = .next { s with rsp := some ⟨okWord (rotr3 x), none⟩ } := rfl

/-- Settles O19: the response data is `rotr3 x`, two disjoint parts of `x` laid end to end, and every `0x5 ++ x` decodes. -/
theorem rotr3RespondsTheRotation : Obligations.Rotr3RespondsTheRotation := by
  unfold Obligations.Rotr3RespondsTheRotation
  intro x s
  exact ⟨decode_op_rotr3 x, rotr3 x, exec_rotr3 x s, rfl, rotr3_parts_disjoint x, rotr3_eq_append x, rotr3_eq_rotr64 x,
    fun i hi => rotr3_getLsbD_of_lt x (Nat.lt_succ_of_le hi)⟩

/-- Settles O20: the left rotation by 3 is the right one by 61, and 3 and 61 make a full turn in either order. -/
theorem rotr3IsInvertible : Obligations.Rotr3IsInvertible := by
  unfold Obligations.Rotr3IsInvertible
  intro x
  rw [rotl64_eq_rotr64 _ (by decide), rotl64_eq_rotr64 _ (by decide), rotr3_eq_rotr64, rotr3_eq_rotr64]
  exact ⟨rotr64_rotr64_of_add_eq x (by decide) (by decide) (by decide),
    rotr64_rotr64_of_add_eq x (by decide) (by decide) (by decide)⟩

/-- Settles O21: each law is read off the bits, since `rotr3` moves every bit 3 places around the circle and alters none. -/
theorem rotr3Laws : Obligations.Rotr3Laws := by
  unfold Obligations.Rotr3Laws
  refine ⟨rotr3_card_ones, by decide, by decide, fun a b => ⟨rotr3_xor a b, rotr3_and a b, rotr3_or a b⟩,
    fun x => ⟨?_, lowNibble_rotr3 x⟩, rotr3_iterate_sixtyFour⟩
  exact rotr3_getLsbD_of_lt x (by decide)

end Sys2Proof.Machine
end

section
/-!
SUPPORT. Table reads: the entry the low nibble selects (spec/42_substitutor.md R100, R101), what `EXTRACT` and `SBOXRD` do to
the core (R103, R106), and what follows from the table being a bijection.
-/

namespace Sys2Proof.Machine

/-! ### The selected entry -/

/-- The mask `0xF` keeps every bit of the low nibble. -/
theorem lowNibble_and_mask (x : Word) : lowNibble (x &&& 0xF) = lowNibble x := by
  have mask : ∀ i < 4, (0xF : Word).getLsbD i = true := by decide
  apply BitVec.eq_of_getLsbD_eq
  intro i hi
  rw [lowNibble_getLsbD, lowNibble_getLsbD, BitVec.getLsbD_and, mask i hi, Bool.and_true]

theorem extract_eq (sbox : SBox) (x : Word) : extract sbox x = (sbox (lowNibble x)).getLsbD 0 := rfl

theorem extract_and_mask (sbox : SBox) (x : Word) : extract sbox (x &&& 0xF) = extract sbox x := by
  rw [extract_eq, extract_eq, lowNibble_and_mask]

theorem extract_nibbleWord (sbox : SBox) (n : Nibble) : extract sbox (nibbleWord n) = (sbox n).getLsbD 0 := by
  rw [extract_eq, lowNibble_nibbleWord]

theorem bitWord_eq_ite (b : Bit) : bitWord b = if b = true then 1 else 0 := by
  cases b <;> rfl

/-- Distinct nibbles are distinct words. -/
theorem nibbleWord_inj {m n : Nibble} : nibbleWord m = nibbleWord n ↔ m = n := by
  constructor
  · intro h
    rw [← lowNibble_nibbleWord m, h, lowNibble_nibbleWord]
  · exact congrArg nibbleWord

/-- A number below 16 is the word of its nibble. -/
theorem ofNat_eq_nibbleWord {v : Nat} (hv : v < 16) : BitVec.ofNat 64 v = nibbleWord (BitVec.ofNat 4 v) := by
  rw [nibbleWord_eq, BitVec.toNat_ofNat, Nat.mod_eq_of_lt hv]

/-- The indices of the odd entries, which are those whose raw bit is 1 (R101). -/
def oddEntries (sbox : SBox) : Finset Nibble := Finset.univ.filter fun n => (sbox n).getLsbD 0 = true

@[simp] theorem mem_oddEntries {sbox : SBox} {n : Nibble} : n ∈ oddEntries sbox ↔ (sbox n).getLsbD 0 = true :=
  Finset.mem_filter_univ n

/-- The table carries its odd entries one to one onto the odd nibbles, of which there are eight. -/
theorem card_oddEntries (sbox : SBox) : (oddEntries sbox).card = 8 := by
  have odd : (Finset.univ.filter fun m : Nibble => m.getLsbD 0 = true).card = 8 := by decide
  rw [← odd]
  refine Finset.card_equiv sbox fun n => ?_
  rw [mem_oddEntries, Finset.mem_filter_univ]

/-! ### `EXTRACT` -/

/-- `EXTRACT x` writes the response and no other field of the core (R106). -/
theorem exec_extract (x : Word) (s : State) :
    exec (.extract x) s = .next { s with rsp := some ⟨okWord (bitWord (extract Config.sbox x)), none⟩ } := rfl

/-- Bits 63 to 4 of the operand have no effect. -/
theorem exec_extract_and_mask (x : Word) (s : State) : exec (.extract (x &&& 0xF)) s = exec (.extract x) s := by
  rw [exec_extract, exec_extract, extract_and_mask]

/-- On the operands 0 to 15 the response tells the indices of the odd entries from the others. -/
theorem exec_extract_nibbleWord (n : Nibble) (s : State) :
    exec (.extract (nibbleWord n)) s =
      .next { s with rsp := some ⟨okWord (if n ∈ oddEntries Config.sbox then 1 else 0), none⟩ } := by
  rw [exec_extract, extract_nibbleWord, bitWord_eq_ite]
  simp only [mem_oddEntries]

/-- Settles O22: the response is bit 0 of the entry at the low nibble, and the eight operands that respond 1 are the indices
of the odd entries. -/
theorem extractReadsTheTableByTheLowNibble : Obligations.ExtractReadsTheTableByTheLowNibble := by
  unfold Obligations.ExtractReadsTheTableByTheLowNibble
  constructor
  · intro x s
    exact ⟨decode_op_extract x, bitWord (extract Config.sbox x), exec_extract x s, bitWord_toNat _,
      exec_extract_and_mask x s⟩
  · exact ⟨oddEntries Config.sbox, card_oddEntries Config.sbox, exec_extract_nibbleWord⟩

/-! ### `SBOXRD` -/

/-- `SBOXRD idx` writes the response and no other field of the core (R103). -/
theorem exec_sboxrd (idx : Nibble) (s : State) :
    exec (.sboxrd idx) s = .next { s with rsp := some ⟨okWord (nibbleWord (Config.sbox idx)), none⟩ } := rfl

/-- An index in the low four bits of `arg` is read back, the reserved bits being 0. -/
theorem decode_sboxrd_nibbleWord (idx : Nibble) : decode ((0x9 : Nibble) ++ nibbleWord idx) = .ok (.sboxrd idx) := by
  have reserved : (nibbleWord idx).extractLsb' 4 60 = 0 := by
    rw [reserved_eq_zero_iff rfl, nibbleWord_toNat]
    exact idx.isLt
  have low : (nibbleWord idx).extractLsb' 0 4 = idx := lowNibble_nibbleWord idx
  rw [decode_op_sboxrd, whenZero_eq_ok, low]
  exact ⟨reserved, rfl⟩

/-- A value is responded at one index only, the one that the inverse of the table gives. -/
theorem exec_sboxrd_eq_iff (idx : Nibble) (s : State) {v : Nat} (hv : v < 16) :
    exec (.sboxrd idx) s = .next { s with rsp := some ⟨okWord (BitVec.ofNat 64 v), none⟩ } ↔
      idx = Config.sbox.symm (BitVec.ofNat 4 v) := by
  rw [exec_sboxrd, ofNat_eq_nibbleWord hv, Equiv.eq_symm_apply, ← nibbleWord_inj]
  constructor
  · intro h
    simp only [Host.Outcome.next.injEq, State.mk.injEq, Option.some.injEq, Response.mk.injEq, and_true, true_and] at h
    exact okWord_inj h
  · intro h
    rw [h]

/-- An index above 15 needs a reserved bit of `arg`, so its word is illegal (spec/30_encoding.md R65). -/
theorem runWord_sboxrd_illegal {arg : Word} (h : 16 ≤ arg.toNat) (s : State) :
    runWord ((0x9 : Nibble) ++ arg) s = .next (raiseFault .illegalCommand s) := by
  have fields : IllegalFields 0x9 arg := .inr (.inr (.inl ⟨rfl, h⟩))
  obtain ⟨e, he⟩ := exists_decode_eq_error fields
  exact runWord_illegal he s

/-- Settles O23: the response is the entry as a word, and since the table is a bijection its inverse gives the one index of
each value. -/
theorem sboxrdRespondsTheEntry : Obligations.SboxrdRespondsTheEntry := by
  unfold Obligations.SboxrdRespondsTheEntry
  intro s
  refine ⟨fun idx => ?_, fun v hv => ?_, fun arg harg => runWord_sboxrd_illegal harg s⟩
  · rw [← nibbleWord_eq, ← nibbleWord_eq]
    exact ⟨decode_sboxrd_nibbleWord idx, exec_sboxrd idx s⟩
  · exact ⟨Config.sbox.symm (BitVec.ofNat 4 v), (exec_sboxrd_eq_iff _ s hv).2 rfl,
      fun idx h => (exec_sboxrd_eq_iff idx s hv).1 h⟩

end Sys2Proof.Machine
end

section
/-!
SUPPORT. The pair decision of the Von Neumann filter and the two-bit words it reads and gives (spec/43_keygenerator.md R120),
what `VNPAIR` does to the core (R121), and what a word with illegal fields does when it is run.
-/

namespace Sys2Proof.Machine

/-! ### Two bits as a word -/

theorem pairWord_eq (p : Bit × Bit) : pairWord p = BitVec.ofNat 64 (2 * p.1.toNat + p.2.toNat) := by
  obtain ⟨hi, lo⟩ := p
  cases hi <;> cases lo <;> rfl

theorem pairWord_toNat_lt (p : Bit × Bit) : (pairWord p).toNat < 4 := by
  obtain ⟨hi, lo⟩ := p
  cases hi <;> cases lo <;> decide

theorem pairWord_getLsbD_zero (hi lo : Bit) : (pairWord (hi, lo)).getLsbD 0 = lo := by
  cases hi <;> cases lo <;> rfl

theorem pairWord_getLsbD_one (hi lo : Bit) : (pairWord (hi, lo)).getLsbD 1 = hi := by
  cases hi <;> cases lo <;> rfl

/-! ### The pair decision -/

/-- A pair emits exactly when its two bits differ. -/
theorem vnpair_emit_iff (b1 b2 : Bit) : (vnpair b1 b2).1 = true ↔ b1 ≠ b2 := bne_iff_ne

/-- In a pair that emits the second bit is the complement of the first, so `out` repeats the first. -/
theorem vnpair_out_of_emit {b1 b2 : Bit} (h : (vnpair b1 b2).1 = true) : (vnpair b1 b2).2 = b1 := by
  have second : (!b2) = b1 := (Bool.eq_not_of_ne ((vnpair_emit_iff b1 b2).1 h)).symm
  rw [vnpair, second, Bool.and_self]

/-! ### `VNPAIR` -/

/-- `VNPAIR b1, b2` writes the response and no other field of the core (R121). -/
theorem exec_vnpair (b1 b2 : Bit) (s : State) :
    exec (.vnpair b1 b2) s = .next { s with rsp := some ⟨okWord (pairWord (vnpair b1 b2)), none⟩ } := rfl

/-- `b1` in bit 0 of `arg` and `b2` in bit 1 are read back, the reserved bits being 0. -/
theorem decode_vnpair_pairWord (b1 b2 : Bit) : decode ((0xA : Nibble) ++ pairWord (b2, b1)) = .ok (.vnpair b1 b2) := by
  have reserved : (pairWord (b2, b1)).extractLsb' 2 62 = 0 :=
    (reserved_eq_zero_iff rfl _).2 (pairWord_toNat_lt _)
  rw [decode_op_vnpair, whenZero_eq_ok, pairWord_getLsbD_zero, pairWord_getLsbD_one]
  exact ⟨reserved, rfl⟩

/-- Running a word with illegal fields raises `IllegalCommand`, whatever the core holds (spec/30_encoding.md R64, R65). -/
theorem runWord_illegalFields {op : Nibble} {arg : Word} (h : IllegalFields op arg) (s : State) :
    runWord (op ++ arg) s = .next (raiseFault .illegalCommand s) := by
  obtain ⟨e, he⟩ := exists_decode_eq_error h
  exact runWord_illegal he s

/-- Settles O30: the response data is the pair decision as a word, whose four values are the rows of R120's table, and an
operand above 3 has a reserved bit that is not 0. -/
theorem vnpairRespondsTheDecision : Obligations.VnpairRespondsTheDecision := by
  unfold Obligations.VnpairRespondsTheDecision
  refine ⟨fun b1 b2 s => ⟨?_, ?_⟩, fun b1 b2 => ⟨rfl, rfl, vnpair_out_of_emit⟩, fun arg s harg => ?_⟩
  · rw [← decode_vnpair_pairWord, pairWord_eq]
  · rw [exec_vnpair]
    cases b1 <;> cases b2 <;> rfl
  · have fields : IllegalFields 0xA arg := .inr (.inr (.inr (.inl ⟨rfl, harg⟩)))
    exact runWord_illegalFields fields s

end Sys2Proof.Machine
end

section
/-!
SUPPORT. What `LOADSEED`, `SETMODE`, `RDSTATE` and `RDSTATUS` do to the core (spec/44_system_ops.md R150, R152 to R154), and
the data of `RDSTATUS` bit by bit (R154).
-/

namespace Sys2Proof.Machine

/-! ### `LOADSEED` -/

/-- `LOADSEED seed` writes `State`, the sticky flags and the response, and no other field of the core (R150). -/
theorem exec_loadseed (seed : Word) (s : State) :
    exec (.loadseed seed) s = .next
      { s with state := .value seed, xh := false, ill := false, ns := false, rsp := some ⟨okWord 0, none⟩ } := rfl

/-- Settles O26: every `0x0 ++ seed` decodes, and a `State` that holds the seed is a seeded one. -/
theorem loadseedBuildsAnInstance : Obligations.LoadseedBuildsAnInstance := by
  unfold Obligations.LoadseedBuildsAnInstance
  intro seed s
  exact ⟨decode_op_loadseed seed, _, exec_loadseed seed s, seeded_iff.2 ⟨seed, rfl⟩, rfl⟩

/-! ### `SETMODE` -/

theorem mode_bit_eq_true_iff (mode : Mode) : mode.bit = true ↔ mode = .simplified := by
  cases mode <;> decide

/-- `SETMODE mode` writes `CTRL.MODE` and the response and no other field of the core (R152). -/
theorem exec_setmode (mode : Mode) (s : State) :
    exec (.setmode mode) s = .next { s with mode := mode, rsp := some ⟨okWord 0, none⟩ } := rfl

theorem bitWord_eq_ofNat (b : Bit) : bitWord b = BitVec.ofNat 64 b.toNat := by
  cases b <;> rfl

/-- A mode in bit 0 of `arg` is read back, the reserved bits being 0. -/
theorem decode_setmode_bitWord (mode : Mode) : decode ((0x1 : Nibble) ++ bitWord mode.bit) = .ok (.setmode mode) := by
  have reserved : (bitWord mode.bit).extractLsb' 1 63 = 0 := by
    rw [reserved_eq_zero_iff rfl, bitWord_toNat]
    exact mode.bit.toNat_lt
  have low : (bitWord mode.bit).getLsbD 0 = mode.bit := bitWord_getLsbD mode.bit 0
  rw [decode_op_setmode, whenZero_eq_ok, low, Mode.ofBit_bit]
  exact ⟨reserved, rfl⟩

/-- Settles O27: bit 0 of `arg` is the mode written, and an operand above 1 has a reserved bit that is not 0. -/
theorem setmodeWritesTheMode : Obligations.SetmodeWritesTheMode := by
  unfold Obligations.SetmodeWritesTheMode
  intro s
  refine ⟨fun mode => ⟨?_, exec_setmode mode s⟩, fun arg harg => ?_⟩
  · rw [← bitWord_eq_ofNat]
    exact decode_setmode_bitWord mode
  · have fields : IllegalFields 0x1 arg := .inr (.inl ⟨rfl, harg⟩)
    exact runWord_illegalFields fields s

/-! ### `RDSTATE` -/

theorem exec_rdstate_value {s : State} {v : Word} (h : s.state = .value v) :
    exec .rdstate s = .next { s with rsp := some ⟨okWord v, none⟩ } :=
  withSeed_value h _

theorem exec_rdstate_noValue {s : State} (h : s.state = .noValue) :
    exec .rdstate s = .next (raiseFault .notSeeded s) :=
  withSeed_noValue h _

theorem decode_rdstate : decode ((0x7 : Nibble) ++ (0 : Word)) = .ok .rdstate := by
  rw [decode_op_rdstate]
  exact whenZero_zero _

/-- An operation without operands (format `N`) reserves all of `arg`, so a word of it with an `arg` that is not 0 is illegal
(spec/30_encoding.md R61, R65). -/
theorem runWord_formatN_illegal {op : Nibble} (hop : op = 0x3 ∨ op = 0x7 ∨ op = 0x8) {arg : Word} (harg : arg ≠ 0)
    (s : State) : runWord (op ++ arg) s = .next (raiseFault .illegalCommand s) :=
  runWord_illegalFields (.inr (.inr (.inr (.inr ⟨hop, harg⟩)))) s

/-- Settles O28: a seeded core answers with the value it holds, an unseeded one with `NotSeeded`, and the decoder refuses an
`arg` that is not 0 before `State` is looked at. -/
theorem rdstateRespondsTheState : Obligations.RdstateRespondsTheState := by
  unfold Obligations.RdstateRespondsTheState
  intro s
  refine ⟨fun v hv => exec_rdstate_value hv, fun hs => ?_, fun arg harg => ?_⟩
  · rw [runWord_ok decode_rdstate, exec_rdstate_noValue hs]
  · exact runWord_formatN_illegal (.inr (.inl rfl)) harg s

/-! ### `RDSTATUS` -/

/-- The status word is built bit by bit above its zeros, bit 0 last, which is how `BitVec.concat` reads it. -/
theorem statusWord_eq_concat (s : State) :
    s.statusWord = ((((BitVec.concat (0 : BitVec 59) s.ns).concat s.ill).concat s.xh).concat s.mode.bit).concat s.seeded :=
  rfl

/-- The bits of the status word, bit 0 first, and 0 above them (R154). -/
theorem statusWord_getLsbD (s : State) (i : Nat) :
    s.statusWord.getLsbD i = [s.seeded, s.mode.bit, s.xh, s.ill, s.ns].getD i false := by
  rw [statusWord_eq_concat]
  match i with
  | 0 | 1 | 2 | 3 | 4 => simp only [BitVec.getLsbD_concat_succ, BitVec.getLsbD_concat_zero]; rfl
  | _ + 5 => simp only [BitVec.getLsbD_concat_succ]; exact BitVec.getLsbD_zero

/-- `RDSTATUS` writes the response and no other field of the core, so it clears no flag (R154). -/
theorem exec_rdstatus (s : State) : exec .rdstatus s = .next { s with rsp := some ⟨okWord s.statusWord, none⟩ } := rfl

/-- Settles O29: the response data is the status word, whose bits are those of `statusWord_getLsbD`, and the decoder refuses
an `arg` that is not 0. -/
theorem rdstatusRespondsTheFiveBits : Obligations.RdstatusRespondsTheFiveBits := by
  unfold Obligations.RdstatusRespondsTheFiveBits
  intro s
  have bit := statusWord_getLsbD s
  refine ⟨⟨s.statusWord, exec_rdstatus s, ?seeded, ?mode, bit 2, bit 3, bit 4, ?above⟩, fun arg harg => ?illegal⟩
  case seeded =>
    rw [bit 0]
    exact seeded_iff
  case mode =>
    rw [bit 1]
    exact mode_bit_eq_true_iff s.mode
  case above =>
    intro i hi
    rw [bit i]
    exact List.getD_eq_default _ _ hi
  case illegal => exact runWord_formatN_illegal (.inr (.inr rfl)) harg s

end Sys2Proof.Machine
end

section
/-!
SUPPORT. `NotSeeded` (spec/60_exceptions.md R173): what an operation that reads `State` does to an unseeded core, and the
response of the operations that need no seed.
-/

namespace Sys2Proof.Machine

/-- `DRAW` on an unseeded core makes no draw (R173). -/
theorem exec_draw_noValue {s : State} (h : s.state = .noValue) : exec .draw s = .next (raiseFault .notSeeded s) :=
  withSeed_noValue h _

/-- `GENERATE` on an unseeded core does not begin, whatever its length (R173; spec/43_keygenerator.md R130). -/
theorem exec_generate_noValue {s : State} (h : s.state = .noValue) (n : Word) :
    exec (.generate n) s = .next (raiseFault .notSeeded s) :=
  withSeed_noValue h _

/-- On an unseeded core of the invariant nothing is in progress and the sequencer's control state is clean, so raising
`NotSeeded` sets `STATUS.NS` and responds, and changes nothing else. -/
theorem raiseFault_notSeeded_of_noValue {s : State} (hs : s.Inv) (h : s.state = .noValue) :
    raiseFault .notSeeded s = { s with ns := true, rsp := some ⟨faultWord .notSeeded, none⟩ } := by
  obtain ⟨hidle, -⟩ := hs.unseeded_idle (not_seeded_iff.2 h)
  exact raiseFault_clean .notSeeded hidle (hs.idle_clean hidle)

/-- The outcome of an operation that responds without a fault. -/
def RespondsOk (o : Result) : Prop := ∃ t r, o = .next t ∧ t.rsp = some r ∧ r.isFault = false

/-- A core whose response port holds an `Ok` word has responded without a fault. -/
theorem respondsOk_of_okWord {o : Result} {t : State} {d : Word} (ho : o = .next t)
    (hr : t.rsp = some ⟨okWord d, none⟩) : RespondsOk o :=
  ⟨t, ⟨okWord d, none⟩, ho, hr, ok_isFault d none⟩

/-- Settles O31: the three readers of `State` raise the fault, which leaves a clean core as it is but for `NS`, and each of
the eight others ends in `respond Ok`. -/
theorem onlyStateReadersRaiseNotSeeded : Obligations.OnlyStateReadersRaiseNotSeeded := by
  unfold Obligations.OnlyStateReadersRaiseNotSeeded
  constructor
  · intro s hs hstate n i hi
    rw [← raiseFault_notSeeded_of_noValue hs hstate]
    simp only [List.mem_cons, List.not_mem_nil, or_false] at hi
    obtain rfl | rfl | rfl := hi
    · exact exec_draw_noValue hstate
    · exact exec_generate_noValue hstate n
    · exact exec_rdstate_noValue hstate
  · intro s i hdraw hrdstate hgenerate
    change RespondsOk (exec i s)
    cases i with
    | draw => exact absurd rfl hdraw
    | rdstate => exact absurd rfl hrdstate
    | generate n => exact absurd rfl (hgenerate n)
    | loadseed seed => exact respondsOk_of_okWord (exec_loadseed seed s) rfl
    | setmode mode => exact respondsOk_of_okWord (exec_setmode mode s) rfl
    | step x => exact respondsOk_of_okWord (exec_step x s) rfl
    | rotr3 x => exact respondsOk_of_okWord (exec_rotr3 x s) rfl
    | extract x => exact respondsOk_of_okWord (exec_extract x s) rfl
    | rdstatus => exact respondsOk_of_okWord (exec_rdstatus s) rfl
    | sboxrd idx => exact respondsOk_of_okWord (exec_sboxrd idx s) rfl
    | vnpair b1 b2 => exact respondsOk_of_okWord (exec_vnpair b1 b2 s) rfl

end Sys2Proof.Machine
end

section
/-!
SUPPORT. The state after reset (spec/70_reset_and_hazards.md R201), and what the latch `b1` can change: nothing but itself.
Two cores agree but for the latch while it awaits its first bit, and agree in it too once a pair has begun, since the draw
that begins a pair writes it (spec/10_state.md R32). Every step keeps that relation, so every run does.
-/

namespace Sys2Proof.Machine

/-! ### Equal but for the latch -/

/-- The core with another value in the latch. -/
def State.withLatch (s : State) (b : Bit) : State := { s with b1 := b }

/-- The two cores differ in the latch at most, and inside a pair, where the latch will be read, in nothing. -/
def SameButLatch (s t : State) : Prop := t = s.withLatch t.b1 ∧ (s.phase = .second → t = s)

theorem SameButLatch.refl (s : State) : SameButLatch s s := ⟨rfl, fun _ => rfl⟩

/-- Between pairs the latch may hold anything. -/
theorem sameButLatch_of_first {s : State} (hp : s.phase = .first) (b : Bit) : SameButLatch s (s.withLatch b) :=
  ⟨rfl, fun hsecond => by simp [hp] at hsecond⟩

/-- Where the first outcome is a next state, the second is one too, equal but for the latch. -/
def SameNextButLatch (o p : Result) : Prop := ∀ t, o = .next t → ∃ u, p = .next u ∧ SameButLatch t u

theorem SameNextButLatch.refl (o : Result) : SameNextButLatch o o := fun t ho => ⟨t, ho, .refl t⟩

theorem SameNextButLatch.of_first {o p : Result} {t : State} {b : Bit} (ho : o = .next t)
    (hlatch : p = .next (t.withLatch b)) (hp : t.phase = .first) : SameNextButLatch o p := by
  subst ho
  rintro _ ⟨⟩
  exact ⟨_, hlatch, sameButLatch_of_first hp b⟩

/-! ### Commands -/

/-- Raising a fault neither reads nor writes the latch (R170). -/
theorem raiseFault_withLatch (c : Cause) (s : State) (b : Bit) :
    raiseFault c (s.withLatch b) = (raiseFault c s).withLatch b := by
  cases c <;> rfl

theorem raiseFault_sameNextButLatch (c : Cause) (s : State) (b : Bit) :
    SameNextButLatch (.next (raiseFault c s)) (.next (raiseFault c (s.withLatch b))) :=
  .of_first rfl (congrArg _ (raiseFault_withLatch c s b)) (raiseFault_phase s c)

theorem withSeed_sameNextButLatch {s : State} {b : Bit} {k k' : Word → Result}
    (hk : ∀ v, SameNextButLatch (k v) (k' v)) : SameNextButLatch (withSeed s k) (withSeed (s.withLatch b) k') := by
  obtain hs | ⟨v, hs⟩ := state_cases s
  · rw [withSeed_noValue hs, withSeed_noValue (s := s.withLatch b) hs]
    exact raiseFault_sameNextButLatch .notSeeded s b
  · rw [withSeed_value hs, withSeed_value (s := s.withLatch b) hs]
    exact hk v

/-- Between pairs no operation reads the latch or begins a pair. -/
theorem exec_sameNextButLatch {s : State} (hp : s.phase = .first) (b : Bit) (i : Instr) :
    SameNextButLatch (exec i s) (exec i (s.withLatch b)) := by
  cases i with
  | generate n => exact withSeed_sameNextButLatch fun _ => .of_first rfl rfl (startGenerate_phase s n)
  | draw => exact withSeed_sameNextButLatch fun _ => .of_first rfl rfl hp
  | rdstate => exact withSeed_sameNextButLatch fun _ => .of_first rfl rfl hp
  | loadseed seed => exact .of_first (exec_loadseed seed s) rfl hp
  | setmode mode => exact .of_first (exec_setmode mode s) rfl hp
  | step x => exact .of_first (exec_step x s) rfl hp
  | rotr3 x => exact .of_first (exec_rotr3 x s) rfl hp
  | extract x => exact .of_first (exec_extract x s) rfl hp
  | rdstatus => exact .of_first (exec_rdstatus s) rfl hp
  | sboxrd idx => exact .of_first (exec_sboxrd idx s) rfl hp
  | vnpair b1 b2 => exact .of_first (exec_vnpair b1 b2 s) rfl hp

theorem runWord_sameNextButLatch {s : State} (hp : s.phase = .first) (b : Bit) (w : CmdWord) :
    SameNextButLatch (runWord w s) (runWord w (s.withLatch b)) := by
  cases hd : decode w with
  | ok i =>
    rw [runWord_ok hd, runWord_ok hd]
    exact exec_sameNextButLatch hp b i
  | error e =>
    rw [runWord_illegal hd, runWord_illegal hd]
    exact raiseFault_sameNextButLatch .illegalCommand s b

/-! ### The sequencer -/

/-- Between pairs the canonical sequencer does not read the latch: it ends, or draws the bit it writes there (R124). -/
theorem filterMove_latch_of_first {σ : Type} {f : FilterState σ} (hp : f.phase = .first) (src : σ → σ × Bit)
    (length : Nat) (budget : Option Nat) (b : Bit) :
    filterMove src length budget { f with b1 := b } = filterMove src length budget f := by
  simp only [filterMove, hp]

/-- A canonical move from between pairs ends the command, or begins a pair and overwrites the latch. -/
theorem canonicalMove_sameNextButLatch {s : State} (hp : s.phase = .first) (b : Bit) (P : Params) (length : Nat)
    (v : Word) : SameNextButLatch (applyMove s (generateMove P .canonical length (s.toFilter v)))
      (applyMove (s.withLatch b) (generateMove P .canonical length ((s.withLatch b).toFilter v))) := by
  have hmove : generateMove P .canonical length ((s.withLatch b).toFilter v) =
      generateMove P .canonical length (s.toFilter v) :=
    filterMove_latch_of_first (f := s.toFilter v) hp _ _ _ b
  rw [hmove]
  cases generateMove P .canonical length (s.toFilter v) with
  | running f => exact .refl (.next (s.ofFilter f))
  | done bits => exact .of_first rfl rfl (goIdle_phase s)
  | exhausted => exact raiseFault_sameNextButLatch .extractionExhausted s b

/-- A simplified move ends the command or emits a bit, and leaves the latch as it is (R129). -/
theorem simplifiedMove_sameNextButLatch {s : State} (hp : s.phase = .first) (b : Bit) (P : Params) (length : Nat)
    (v : Word) : SameNextButLatch (applyMove s (generateMove P .simplified length (s.toFilter v)))
      (applyMove (s.withLatch b) (generateMove P .simplified length ((s.withLatch b).toFilter v))) := by
  have hout : ((s.withLatch b).toFilter v).out = (s.toFilter v).out := rfl
  simp only [generateMove, plainMove, hout]
  by_cases hdone : (s.toFilter v).out.length = length
  · rw [if_pos hdone, if_pos hdone]
    exact .of_first rfl rfl (goIdle_phase s)
  · rw [if_neg hdone, if_neg hdone]
    exact .of_first rfl rfl hp

theorem sequencerWith_sameNextButLatch {s : State} (hp : s.phase = .first) (b : Bit) (P : Params) (n : Word) :
    SameNextButLatch (sequencerWith P n s) (sequencerWith P n (s.withLatch b)) := by
  obtain hs | ⟨v, hs⟩ := state_cases s
  · intro t ht
    simp [sequencerWith, hs] at ht
  · have hmode : (s.withLatch b).mode = s.mode := rfl
    rw [sequencerWith_value hs, sequencerWith_value (s := s.withLatch b) hs, hmode]
    cases s.mode with
    | canonical => exact canonicalMove_sameNextButLatch hp b P n.toNat v
    | simplified => exact simplifiedMove_sameNextButLatch hp b P n.toNat v

theorem advance_sameNextButLatch {s : State} (hp : s.phase = .first) (b : Bit) :
    SameNextButLatch (advance s) (advance (s.withLatch b)) := by
  obtain ha | ⟨n, ha⟩ := activity_cases s
  · exact .of_first (advanceWith_idle _ ha) (advanceWith_idle (s := s.withLatch b) _ ha) hp
  · rw [advance, advance, advanceWith_generating _ ha, advanceWith_generating (s := s.withLatch b) _ ha]
    exact sequencerWith_sameNextButLatch hp b _ n

/-! ### Steps and runs -/

/-- Between pairs a step does not read the latch, whatever the host's next move. -/
theorem step_sameNextButLatch_of_first {s : State} (hp : s.phase = .first) (b : Bit) :
    SameNextButLatch (step s) (step (s.withLatch b)) := by
  cases hh : s.host with
  | nil =>
    rw [step_silent hh, step_silent (s := s.withLatch b) hh]
    exact advance_sameNextButLatch hp b
  | cons move rest =>
    cases move with
    | wait =>
      rw [step_wait hh, step_wait (s := s.withLatch b) hh]
      exact advance_sameNextButLatch (s := { s with host := rest }) hp b
    | reset =>
      rw [step_reset hh, step_reset (s := s.withLatch b) hh]
      exact .refl _
    | command w =>
      obtain ha | ⟨n, ha⟩ := activity_cases s
      · rw [step_accept ha hh, step_accept (s := s.withLatch b) ha hh]
        exact runWord_sameNextButLatch (s := takeCommand rest s) hp b w
      · rw [step_busy ha hh, step_busy (s := s.withLatch b) ha hh]
        exact advance_sameNextButLatch hp b

/-- A step keeps two cores equal but for the latch. -/
theorem step_sameNextButLatch {s s' : State} (h : SameButLatch s s') : SameNextButLatch (step s) (step s') := by
  obtain ⟨heq, hsecond⟩ := h
  cases hp : s.phase with
  | first =>
    rw [heq]
    exact step_sameNextButLatch_of_first hp s'.b1
  | second =>
    rw [hsecond hp]
    exact .refl _

/-- Every run keeps two cores equal but for the latch, by induction on its steps. -/
theorem core_run_sameNextButLatch (k : Nat) {s s' : State} (h : SameButLatch s s') :
    SameNextButLatch (Sys2Proof.core.run k s) (Sys2Proof.core.run k s') := by
  induction k generalizing s s' with
  | zero =>
    rintro _ ⟨⟩
    exact ⟨s', rfl, h⟩
  | succ k ih =>
    intro t ht
    cases hs : step s with
    | next r =>
      obtain ⟨r', hs', hr⟩ := step_sameNextButLatch h r hs
      rw [core_run_next hs] at ht
      rw [core_run_next hs']
      exact ih hr t ht
    | fault f => simp [core_run_fault hs] at ht
    | refused q => simp [core_run_refused hs] at ht

/-! ### Reset -/

/-- The status word of the reset state has all its flags clear (R154, R201). -/
theorem statusWord_reset : State.reset.statusWord = 0 := by decide

/-- The first command after reset can be `RDSTATUS`, and it responds `Ok(0)` (R201). -/
theorem step_rdstatus_of_reset :
    step (State.reset.withFetchWord 72 0x80000000000000000) =
      .next { State.reset with rsp := some ⟨okWord 0, none⟩ } := by
  have hpresent : State.reset.withFetchWord 72 0x80000000000000000 = presentWord 0x80000000000000000 State.reset := rfl
  have hdecode : decode 0x80000000000000000 = .ok .rdstatus := by decide
  have htake : takeCommand [] (presentWord 0x80000000000000000 State.reset) = State.reset := rfl
  rw [hpresent, step_accept (presentWord_activity _ _) (presentWord_host _ _)]
  calc runWord 0x80000000000000000 (takeCommand [] (presentWord 0x80000000000000000 State.reset))
      = exec .rdstatus State.reset := by rw [htake, runWord_ok hdecode]
    _ = .next { State.reset with rsp := some ⟨okWord 0, none⟩ } := by rw [exec_rdstatus, statusWord_reset]

/-- Settles O13: the fields are those of the model's reset state, and a core between pairs runs the same whatever its latch
holds. -/
theorem resetStateIsTheSpecs : Obligations.ResetStateIsTheSpecs := by
  unfold Obligations.ResetStateIsTheSpecs
  refine ⟨rfl, rfl, rfl, rfl, rfl, rfl, rfl, rfl, rfl, rfl, rfl, rfl, step_rdstatus_of_reset, fun host b k t ht => ?_⟩
  have hstart : SameButLatch { State.reset with host := host } { State.reset with host := host, b1 := b } :=
    sameButLatch_of_first rfl b
  obtain ⟨u, hu, heq, -⟩ := core_run_sameNextButLatch k hstart t ht
  exact ⟨u, hu, heq⟩

end Sys2Proof.Machine
end

section
/-!
SUPPORT. The encoder and the decoder as inverses of each other (spec/30_encoding.md R60 to R66): every operation is read back
from its word, and the words without illegal fields are exactly the words of operations. The agreement with the opcode table
and the round trip from the word's side follow.
-/

namespace Sys2Proof.Machine

/-! ### From the operation to the word and back -/

theorem decode_encode (i : Instr) : decode (encode i) = .ok i := by
  cases i with
  | loadseed seed => exact decode_op_loadseed seed
  | setmode mode => exact decode_setmode_bitWord mode
  | generate n => exact decode_op_generate n
  | draw => exact (decode_op_draw 0).trans (whenZero_zero _)
  | step x => exact decode_op_step x
  | rotr3 x => exact decode_op_rotr3 x
  | extract x => exact decode_op_extract x
  | rdstate => exact decode_rdstate
  | rdstatus => exact (decode_op_rdstatus 0).trans (whenZero_zero _)
  | sboxrd idx => exact decode_sboxrd_nibbleWord idx
  | vnpair b1 b2 => exact decode_vnpair_pairWord b1 b2

/-- Settles O1: the decoder's equation for the operation's `op`, whose reserved field the encoder leaves 0. -/
theorem decodeOfEncodeIsTheInstruction : Obligations.DecodeOfEncodeIsTheInstruction := by
  unfold Obligations.DecodeOfEncodeIsTheInstruction
  exact decode_encode

/-! ### Operands that fit their fields -/

/-- A mode's two operands are 0 and 1. -/
theorem exists_mode_of_lt {arg : Word} (h : arg.toNat < 2) : ∃ mode : Mode, bitWord mode.bit = arg := by
  obtain h0 | h1 : arg.toNat = 0 ∨ arg.toNat = 1 := by omega
  · exact ⟨.canonical, BitVec.eq_of_toNat_eq h0.symm⟩
  · exact ⟨.simplified, BitVec.eq_of_toNat_eq h1.symm⟩

/-- An operand below 16 is an index. -/
theorem exists_nibble_of_lt {arg : Word} (h : arg.toNat < 16) : ∃ idx : Nibble, nibbleWord idx = arg := by
  refine ⟨BitVec.ofNat 4 arg.toNat, ?_⟩
  rw [← ofNat_eq_nibbleWord h, BitVec.ofNat_toNat, BitVec.setWidth_eq]

/-- An operand below 4 is a pair of bits. -/
theorem pairWord_of_lt {arg : Word} (h : arg.toNat < 4) :
    pairWord (arg.toNat / 2 == 1, arg.toNat % 2 == 1) = arg := by
  apply BitVec.eq_of_toNat_eq
  obtain h | h | h | h : arg.toNat = 0 ∨ arg.toNat = 1 ∨ arg.toNat = 2 ∨ arg.toNat = 3 := by omega
  all_goals rw [h]; rfl

/-! ### From the word to the operation and back -/

/-- A word without illegal fields is the word of an operation (R64, R65). -/
theorem exists_encode_eq {op : Nibble} {arg : Word} (h : ¬ IllegalFields op arg) : ∃ i, encode i = op ++ arg := by
  have formatN : op = 0x3 ∨ op = 0x7 ∨ op = 0x8 → arg = 0 := fun hop => by
    by_contra harg
    exact h (.inr (.inr (.inr (.inr ⟨hop, harg⟩))))
  rcases op_cases op with rfl | rfl | rfl | rfl | rfl | rfl | rfl | rfl | rfl | rfl | rfl | hop
  · exact ⟨.loadseed arg, rfl⟩
  · have hlt : arg.toNat < 2 := Nat.lt_of_not_le fun hle => h (.inr (.inl ⟨rfl, hle⟩))
    obtain ⟨mode, rfl⟩ := exists_mode_of_lt hlt
    exact ⟨.setmode mode, rfl⟩
  · exact ⟨.generate arg, rfl⟩
  · rw [formatN (.inl rfl)]
    exact ⟨.draw, rfl⟩
  · exact ⟨.step arg, rfl⟩
  · exact ⟨.rotr3 arg, rfl⟩
  · exact ⟨.extract arg, rfl⟩
  · rw [formatN (.inr (.inl rfl))]
    exact ⟨.rdstate, rfl⟩
  · rw [formatN (.inr (.inr rfl))]
    exact ⟨.rdstatus, rfl⟩
  · have hlt : arg.toNat < 16 := Nat.lt_of_not_le fun hle => h (.inr (.inr (.inl ⟨rfl, hle⟩)))
    obtain ⟨idx, rfl⟩ := exists_nibble_of_lt hlt
    exact ⟨.sboxrd idx, rfl⟩
  · have hlt : arg.toNat < 4 := Nat.lt_of_not_le fun hle => h (.inr (.inr (.inr (.inl ⟨rfl, hle⟩))))
    rw [← pairWord_of_lt hlt]
    exact ⟨.vnpair _ _, rfl⟩
  · exact absurd (.inl hop) h

/-- The decoder's reading of a word encodes to that word. -/
theorem encode_of_decode {w : CmdWord} {i : Instr} (h : decode w = .ok i) : encode i = w := by
  rw [word_eq_fields w] at h ⊢
  obtain ⟨j, hj⟩ := exists_encode_eq ((exists_decode_eq_ok_iff _ _).1 ⟨i, h⟩)
  rw [← hj, decode_encode] at h
  rw [← hj, Except.ok.inj h]

/-- Settles O2: a decodable word is the word of some operation, and that operation is what it decodes to. -/
theorem encodeOfDecodedWordIsTheWord : Obligations.EncodeOfDecodedWordIsTheWord := by
  unfold Obligations.EncodeOfDecodedWordIsTheWord
  exact fun _ _ => encode_of_decode

/-! ### The opcode table -/

theorem wellFormed_encode (i : Instr) : wellFormed (encode i) = true := by
  cases i with
  | loadseed seed => exact Laws.EncodeWellFormed.loadseed seed
  | setmode mode => exact Laws.EncodeWellFormed.setmode mode
  | generate n => exact Laws.EncodeWellFormed.generate n
  | draw => exact Laws.EncodeWellFormed.draw
  | step x => exact Laws.EncodeWellFormed.step x
  | rotr3 x => exact Laws.EncodeWellFormed.rotr3 x
  | extract x => exact Laws.EncodeWellFormed.extract x
  | rdstate => exact Laws.EncodeWellFormed.rdstate
  | rdstatus => exact Laws.EncodeWellFormed.rdstatus
  | sboxrd idx => exact Laws.EncodeWellFormed.sboxrd idx
  | vnpair b1 b2 => exact Laws.EncodeWellFormed.vnpair b1 b2

/-- Masking to all but the low `k` bits gives 0 exactly for the operands of `k` bits. -/
theorem and_highMask_eq_zero_iff {k : Nat} (hk : k ≤ 64) {arg mask : Word}
    (hmask : ∀ i < 64, mask.getLsbD i = decide (k ≤ i)) : arg &&& mask = 0 ↔ arg.toNat < 2 ^ k := by
  rw [← reserved_eq_zero_iff (n := 64 - k) (by omega)]
  constructor
  · intro h
    apply BitVec.eq_of_getLsbD_eq
    intro i hi
    have hbit := congrArg (fun x : Word => x.getLsbD (k + i)) h
    simpa [hmask (k + i) (by omega), hi] using hbit
  · intro h
    apply BitVec.eq_of_getLsbD_eq
    intro i hi
    rw [BitVec.getLsbD_and, hmask i hi]
    by_cases hki : k ≤ i
    · have hbit := congrArg (fun x => x.getLsbD (i - k)) h
      have hsub : i - k < 64 - k := by omega
      simpa [hki, hsub] using hbit
    · simp [hki]

/-- How many low bits of `arg` the operand of an `op` takes; the bits above them are reserved (R61, R63). -/
def operandBits (op : Nibble) : Nat :=
  if op = 0x3 ∨ op = 0x7 ∨ op = 0x8 then 0
  else if op = 0x1 then 1
  else if op = 0xA then 2
  else if op = 0x9 then 4
  else 64

/-- Every row of the table fixes an `op` of the opcode map and sets exactly its reserved bits of `arg` to 0. -/
theorem opcodeRows_shape : ∀ r ∈ opcodeRows,
    opField r.mask = BitVec.allOnes 4 ∧ (opField r.pattern).toNat < 0xB ∧ argField r.pattern = 0 ∧
      ∀ i < 64, (argField r.mask).getLsbD i = decide (operandBits (opField r.pattern) ≤ i) := by decide

theorem operandBits_le (op : Nibble) : operandBits op ≤ 64 := by
  revert op
  decide

/-- An illegal word has a reserved `op` or an `arg` that does not fit its operand. -/
theorem IllegalFields.reserved_or_too_wide {op : Nibble} {arg : Word} (h : IllegalFields op arg) :
    0xB ≤ op.toNat ∨ 2 ^ operandBits op ≤ arg.toNat := by
  have one_le : arg ≠ 0 → 1 ≤ arg.toNat := fun harg =>
    Nat.one_le_iff_ne_zero.2 fun h0 => harg (BitVec.eq_of_toNat_eq h0)
  rcases h with hop | ⟨rfl, harg⟩ | ⟨rfl, harg⟩ | ⟨rfl, harg⟩ | ⟨rfl | rfl | rfl, harg⟩
  · exact .inl hop
  · exact .inr harg
  · exact .inr harg
  · exact .inr harg
  all_goals exact .inr (one_le harg)

/-- A row of the opcode table covers words without illegal fields only. -/
theorem legal_of_covers {r : Row} (hr : r ∈ opcodeRows) {op : Nibble} {arg : Word}
    (hc : r.covers (op ++ arg) = true) : ¬ IllegalFields op arg := by
  obtain ⟨hmask, hop, hpattern, hreserved⟩ := opcodeRows_shape r hr
  have hfields : r = Row.mk (opField r.mask ++ argField r.mask) (opField r.pattern ++ argField r.pattern) := by
    rw [← word_eq_fields, ← word_eq_fields]
  rw [hfields, Row.covers_append, hmask, hpattern, BitVec.and_allOnes] at hc
  obtain ⟨rfl, harg⟩ := hc
  have hfits := (and_highMask_eq_zero_iff (operandBits_le _) hreserved).1 harg
  intro hillegal
  obtain h | h := hillegal.reserved_or_too_wide <;> omega

theorem exists_decode_iff_wellFormed (w : CmdWord) : (∃ i, decode w = .ok i) ↔ wellFormed w = true := by
  constructor
  · rintro ⟨i, hi⟩
    rw [← encode_of_decode hi]
    exact wellFormed_encode i
  · intro h
    obtain ⟨r, hr, hc⟩ := List.any_eq_true.1 h
    rw [word_eq_fields w] at hc ⊢
    exact (exists_decode_eq_ok_iff _ _).2 (legal_of_covers hr hc)

/-- Two rows that fix a bit at different values cover no word in common. -/
theorem not_covers_of_apart {r q : Row} (h : r.apart q = true) {w : CmdWord} (hr : r.covers w = true) :
    ¬ q.covers w = true := by
  intro hq
  rw [Row.covers, beq_iff_eq] at hr hq
  have hagree : (r.pattern ^^^ q.pattern) &&& (r.mask &&& q.mask) = 0 := by
    apply BitVec.eq_of_getLsbD_eq
    intro i _
    rw [← hr, ← hq]
    refine Eq.trans ?_ BitVec.getLsbD_zero.symm
    simp only [BitVec.getLsbD_and, BitVec.getLsbD_xor]
    cases w.getLsbD i <;> cases r.mask.getLsbD i <;> cases q.mask.getLsbD i <;> rfl
  simp [Row.apart, hagree] at h

theorem row_eq_or_apart : ∀ r ∈ opcodeRows, ∀ q ∈ opcodeRows, r = q ∨ r.apart q = true := by decide

/-- Settles O3: the words the decoder accepts are the words of operations, which the rows of the table cover between them, and
distinct rows are apart. -/
theorem decoderAcceptsExactlyTheTableWords : Obligations.DecoderAcceptsExactlyTheTableWords := by
  unfold Obligations.DecoderAcceptsExactlyTheTableWords
  refine fun w => ⟨exists_decode_iff_wellFormed w, fun r hr q hq hrw hqw => ?_⟩
  exact (row_eq_or_apart r hr q hq).resolve_right fun hapart => not_covers_of_apart hapart hrw hqw

/-! ### The case table of R66 -/

theorem whenZero_arg (arg : Word) (i : Instr) :
    whenZero arg i = if arg.toNat = 0 then .ok i else .error .reservedArg := by
  simp only [whenZero, ← BitVec.toNat_inj]
  rfl

/-- A reserved field above the low `k` bits refuses the operands of more than `k` bits. -/
theorem whenZero_reserved {k n : Nat} (hk : k + n = 64) (arg : Word) (i : Instr) :
    whenZero (arg.extractLsb' k n) i = if arg.toNat < 2 ^ k then .ok i else .error .reservedArg := by
  simp only [whenZero, reserved_eq_zero_iff hk]

theorem decode_setmode_eq_ite (arg : Word) : decode ((0x1 : Nibble) ++ arg) =
    if arg.toNat = 0 then .ok (.setmode .canonical) else if arg.toNat = 1 then .ok (.setmode .simplified)
      else .error .reservedArg := by
  rw [decode_op_setmode, whenZero_reserved rfl]
  obtain h | h | h : arg.toNat = 0 ∨ arg.toNat = 1 ∨ 2 ≤ arg.toNat := by omega
  · rw [(even_iff arg).2 (by omega)]
    simp [h, Mode.ofBit]
  · rw [(odd_iff arg).2 (by omega)]
    simp [h, Mode.ofBit]
  · rw [if_neg (by omega), if_neg (by omega), if_neg (by omega)]

theorem decode_vnpair_eq_ite (arg : Word) : decode ((0xA : Nibble) ++ arg) =
    if arg.toNat < 4 then .ok (.vnpair (arg.toNat % 2 == 1) (arg.toNat / 2 == 1)) else .error .reservedArg := by
  by_cases h : arg.toNat < 4
  · rw [if_pos h, ← decode_vnpair_pairWord, pairWord_of_lt h]
  · rw [if_neg h, decode_op_vnpair, whenZero_reserved rfl]
    exact if_neg h

theorem decode_sboxrd_eq_ite (arg : Word) : decode ((0x9 : Nibble) ++ arg) =
    if arg.toNat < 16 then .ok (.sboxrd (BitVec.ofNat 4 arg.toNat)) else .error .reservedArg := by
  have low : arg.extractLsb' 0 4 = BitVec.ofNat 4 arg.toNat := BitVec.eq_of_toNat_eq (by simp)
  rw [decode_op_sboxrd, whenZero_reserved rfl, low]
  rfl

/-- Settles O4: the decoder's equation for each `op`, its reserved field read as a bound on `arg`. -/
theorem decodeIsTheSpecsCaseTable : Obligations.DecodeIsTheSpecsCaseTable := by
  unfold Obligations.DecodeIsTheSpecsCaseTable
  intro op arg
  refine ⟨?_, ?_, ?_, ?_, ?_, ?_, ?_, ?_, ?_, ?_, ?_, fun hop => decode_op_reserved hop arg⟩ <;> rintro rfl
  · exact decode_op_loadseed arg
  · exact decode_setmode_eq_ite arg
  · exact decode_op_generate arg
  · rw [decode_op_draw, whenZero_arg]
  · exact decode_op_step arg
  · exact decode_op_rotr3 arg
  · exact decode_op_extract arg
  · rw [decode_op_rdstate, whenZero_arg]
  · rw [decode_op_rdstatus, whenZero_arg]
  · exact decode_sboxrd_eq_ite arg
  · exact decode_vnpair_eq_ite arg

/-- Settles O5: each word is a closed term that the decoder evaluates. -/
theorem writtenOutWordsDecode : Obligations.WrittenOutWordsDecode := by
  unfold Obligations.WrittenOutWordsDecode
  decide

/-! ### Response words -/

theorem okWord_toNat (d : Word) : (okWord d).toNat = d.toNat := by
  apply Nat.eq_of_testBit_eq
  intro i
  rw [BitVec.testBit_toNat, BitVec.testBit_toNat, okWord_getLsbD]

/-- Settles O6: a success is its data under zeros; a fault is one of three words. -/
theorem responseWordsHaveTheLayout : Obligations.ResponseWordsHaveTheLayout := by
  unfold Obligations.ResponseWordsHaveTheLayout
  constructor
  · intro d bits
    exact ⟨ok_isFault d bits, ok_cause d bits, ok_data d bits, okWord_toNat d⟩
  · intro c bits
    refine ⟨fault_isFault c bits, fault_data c bits, fault_cause c bits, ?_⟩
    cases c <;> decide

end Sys2Proof.Machine
end

section
/-!
SUPPORT. What an idle core can do with a word, said once for every later proof; the steps of a busy core, of a silent host and
of a reset; and the machine's run beside the core's own (spec/30_encoding.md R60, R67, R68; spec/60_exceptions.md R170, R186;
spec/70_reset_and_hazards.md R200, R203).
-/

namespace Sys2Proof.Machine

/-! ### Raising a fault -/

/-- Settles O10: the three causes one by one, each the record of `raiseFault` written out. -/
theorem raiseDoesThreeThingsAndNothingElse : Obligations.RaiseDoesThreeThingsAndNothingElse := by
  unfold Obligations.RaiseDoesThreeThingsAndNothingElse
  intro c s
  cases c <;> simp [raiseFault, goIdle, State.setSticky, faultWord, Cause.code]

/-! ### Operations -/

/-- `DRAW` on a seeded core (R107). -/
theorem exec_draw_value {s : State} {v : Word} (h : s.state = .value v) :
    exec .draw s = .next { s with state := .value (drawMap v),
                                  rsp := some ⟨okWord (bitWord (rawBit Config.params s.mode (drawMap v))), none⟩ } :=
  withSeed_value h _

/-- `GENERATE` on a seeded core begins (R130). -/
theorem exec_generate_value {s : State} {v : Word} (h : s.state = .value v) (n : Word) :
    exec (.generate n) s = .next (startGenerate n s) :=
  withSeed_value h _

/-- Settles O32: each of the five writes the response port only, with data its operand gives. -/
theorem operandOperationsIgnoreTheCore : Obligations.OperandOperationsIgnoreTheCore := by
  unfold Obligations.OperandOperationsIgnoreTheCore
  rintro i (⟨x, rfl⟩ | ⟨x, rfl⟩ | ⟨x, rfl⟩ | ⟨idx, rfl⟩ | ⟨b1, b2, rfl⟩)
  · exact ⟨_, exec_step x⟩
  · exact ⟨_, exec_rotr3 x⟩
  · exact ⟨_, exec_extract x⟩
  · exact ⟨_, exec_sboxrd idx⟩
  · exact ⟨_, exec_vnpair b1 b2⟩

/-- `Accepts w s t`: the core in state `s`, with the word `w` taken off its port, goes on to `t`. -/
inductive Accepts (w : CmdWord) (s : State) : State → Prop
  | raised (c : Cause) (hc : c ≠ .extractionExhausted) : Accepts w s (raiseFault c s)
  | loaded (seed : Word) (hw : decode w = .ok (.loadseed seed)) :
      Accepts w s (respond 0 (writeState seed s).clearSticky)
  | modeSet (mode : Mode) (hw : decode w = .ok (.setmode mode)) : Accepts w s (respond 0 { s with mode := mode })
  | begun (n v : Word) (hw : decode w = .ok (.generate n)) (hs : s.state = .value v) : Accepts w s (startGenerate n s)
  | drawn (v d : Word) (hw : decode w = .ok .draw) (hs : s.state = .value v) :
      Accepts w s (respond d (writeState (drawMap v) s))
  | answered (d : Word) : Accepts w s (respond d s)

/-- Running a decodable word goes on in one of the ways of `Accepts`. -/
theorem exec_accepts {w : CmdWord} {i : Instr} (hw : decode w = .ok i) (s : State) :
    ∃ t, exec i s = .next t ∧ Accepts w s t := by
  cases i with
  | loadseed seed => exact ⟨_, rfl, .loaded seed hw⟩
  | setmode mode => exact ⟨_, rfl, .modeSet mode hw⟩
  | generate n =>
    obtain hs | ⟨v, hs⟩ := state_cases s
    · exact ⟨_, exec_generate_noValue hs n, .raised .notSeeded (by decide)⟩
    · exact ⟨_, exec_generate_value hs n, .begun n v hw hs⟩
  | draw =>
    obtain hs | ⟨v, hs⟩ := state_cases s
    · exact ⟨_, exec_draw_noValue hs, .raised .notSeeded (by decide)⟩
    · exact ⟨_, exec_draw_value hs, .drawn v _ hw hs⟩
  | rdstate =>
    obtain hs | ⟨v, hs⟩ := state_cases s
    · exact ⟨_, exec_rdstate_noValue hs, .raised .notSeeded (by decide)⟩
    · exact ⟨_, exec_rdstate_value hs, .answered v⟩
  | step x => exact ⟨_, rfl, .answered _⟩
  | rotr3 x => exact ⟨_, rfl, .answered _⟩
  | extract x => exact ⟨_, rfl, .answered _⟩
  | rdstatus => exact ⟨_, rfl, .answered _⟩
  | sboxrd idx => exact ⟨_, rfl, .answered _⟩
  | vnpair b1 b2 => exact ⟨_, rfl, .answered _⟩

/-- Running a word never stops the machine. -/
theorem runWord_accepts (w : CmdWord) (s : State) : ∃ t, runWord w s = .next t ∧ Accepts w s t := by
  cases hd : decode w with
  | ok i =>
    rw [runWord_ok hd]
    exact exec_accepts hd s
  | error e => exact ⟨_, runWord_illegal hd s, .raised .illegalCommand (by decide)⟩

theorem accepts_of_runWord {w : CmdWord} {s t : State} (h : runWord w s = .next t) : Accepts w s t := by
  obtain ⟨u, hu, hacc⟩ := runWord_accepts w s
  rw [hu] at h
  cases h
  exact hacc

/-! ### One step -/

/-- Settles O7: the acceptance of a word that decodes. -/
theorem stepRunsTheDecodedInstruction : Obligations.StepRunsTheDecodedInstruction := by
  unfold Obligations.StepRunsTheDecodedInstruction
  intro s w rest i ha hh hw
  rw [step_accept ha hh, runWord_ok hw]
  rfl

/-- A command word in a carrier of nine bytes is found again (log entry 8). -/
theorem tableWord_toNat (w : CmdWord) : tableWord 72 w.toNat = some w := by
  have hlt : w.toNat < 2 ^ 68 := w.isLt
  have hmod : w.toNat % 2 ^ 72 = w.toNat := Nat.mod_eq_of_lt (Nat.lt_trans hlt (by decide))
  simp only [tableWord, hmod, if_pos hlt, BitVec.ofNat_toNat, BitVec.setWidth_eq]

/-- Settles O8: the presented word is the encoding of `i`, which the idle core takes, decodes and runs. -/
theorem fetchWordIsRunByTheNextStep : Obligations.FetchWordIsRunByTheNextStep := by
  unfold Obligations.FetchWordIsRunByTheNextStep
  intro s i
  have hpresent : s.withFetchWord 72 (encode i).toNat = presentWord (encode i) s := by
    rw [State.withFetchWord, tableWord_toNat]
  refine ⟨takeCommand s.host (presentWord (encode i) s), ?_, ?_, rfl⟩
  · rw [hpresent, step_accept (presentWord_activity s _) (presentWord_host s _), runWord_ok (decode_encode i)]
  · simp only [decodeTableWord, tableWord_toNat, decode_encode]

/-- Settles O12: the host's move alone decides the step. -/
theorem resetAbandonsWhateverExecutes : Obligations.ResetAbandonsWhateverExecutes := by
  unfold Obligations.ResetAbandonsWhateverExecutes
  intro s rest hh
  exact step_reset hh

/-- Settles O14: the own move of an idle core changes nothing. -/
theorem idleCoreKeepsItsState : Obligations.IdleCoreKeepsItsState := by
  unfold Obligations.IdleCoreKeepsItsState
  intro s ha
  refine ⟨fun hh => ?_, fun rest hh => ?_⟩
  · rw [step_silent hh, advance, advanceWith_idle _ ha]
  · rw [step_wait hh, advance, advanceWith_idle (s := { s with host := rest }) _ ha]

/-- What an accepted word leaves: the host's list, and either an idle core that has responded or a `GENERATE` that begins. -/
theorem Accepts.outcome {w : CmdWord} {s t : State} (h : Accepts w s t) (ha : s.activity = .idle) (hr : s.rsp = none) :
    t.host = s.host ∧ ((t.activity = .idle ∧ ∃ r, t.rsp = some r) ∨
      ∃ n, decode w = .ok (.generate n) ∧ s.seeded = true ∧ t.StillGenerating n) := by
  cases h with
  | raised c hc => exact ⟨raiseFault_host s c, .inl ⟨raiseFault_activity s c, _, raiseFault_rsp s c⟩⟩
  | begun n v hw hs => exact ⟨rfl, .inr ⟨n, hw, seeded_iff.2 ⟨v, hs⟩, startGenerate_activity s n, hr⟩⟩
  | loaded seed hw => exact ⟨rfl, .inl ⟨ha, _, rfl⟩⟩
  | modeSet mode hw => exact ⟨rfl, .inl ⟨ha, _, rfl⟩⟩
  | drawn v d hw hs => exact ⟨rfl, .inl ⟨ha, _, rfl⟩⟩
  | answered d => exact ⟨rfl, .inl ⟨ha, _, rfl⟩⟩

/-- Settles O16: the port is empty when the word is run, and the ways of `Accepts` respond or begin a `GENERATE`. -/
theorem acceptedWordRespondsAtOnceOrGenerates : Obligations.AcceptedWordRespondsAtOnceOrGenerates := by
  unfold Obligations.AcceptedWordRespondsAtOnceOrGenerates
  intro s w rest ha hh
  obtain ⟨t, ht, hacc⟩ := runWord_accepts w (takeCommand rest s)
  exact ⟨t, (step_accept ha hh).trans ht, hacc.outcome ha (takeCommand_rsp s rest)⟩

/-! ### The host's list during the core's own moves -/

/-- A transition of the sequencer neither reads nor writes the host's list. -/
theorem sequencerWith_withHost {P : Params} {n : Word} {s t : State} (h : sequencerWith P n s = .next t)
    (host : List HostMove) :
    t.host = s.host ∧ sequencerWith P n { s with host := host } = .next { t with host := host } := by
  obtain hs | ⟨v, hs⟩ := state_cases s
  · simp [sequencerWith, hs] at h
  · have hmove : sequencerWith P n { s with host := host } =
        applyMove { s with host := host } (generateMove P s.mode n.toNat (s.toFilter v)) :=
      sequencerWith_value (s := { s with host := host }) hs
    rw [sequencerWith_value hs] at h
    rw [hmove]
    cases hm : generateMove P s.mode n.toNat (s.toFilter v) <;> rw [hm] at h <;> cases h <;> exact ⟨rfl, rfl⟩

/-- The core's own move leaves the host's list. -/
theorem advanceWith_host {P : Params} {s t : State} (h : advanceWith P s = .next t) : t.host = s.host := by
  obtain ha | ⟨n, ha⟩ := activity_cases s
  · rw [advanceWith_idle P ha] at h
    cases h
    rfl
  · rw [advanceWith_generating P ha] at h
    exact (sequencerWith_withHost h s.host).1

/-- Settles O11: the busy core makes its own move, which leaves the host's list and does the same with an empty one. -/
theorem busyCoreDoesNotAcceptACommand : Obligations.BusyCoreDoesNotAcceptACommand := by
  unfold Obligations.BusyCoreDoesNotAcceptACommand
  intro s n w rest ha hh
  have hbusy := step_busy ha hh
  refine ⟨hbusy, fun t ht => ?_⟩
  rw [hbusy, advance, advanceWith_generating _ ha] at ht
  obtain ⟨hhost, hsilent⟩ := sequencerWith_withHost ht []
  refine ⟨hhost, ?_⟩
  rw [step_silent (s := { s with host := [] }) rfl, advance,
    advanceWith_generating (s := { s with host := [] }) _ ha, hsilent]

/-! ### The machine's run and the core's -/

theorem runCore_fault {P : Params} {s : State} {f : Fault} (h : advanceWith P s = .fault f) (k : Nat) :
    runCore P (k + 1) s = .fault f := by simp only [runCore, h]

theorem runCore_refused {P : Params} {s : State} {r : Refusal} (h : advanceWith P s = .refused r) (k : Nat) :
    runCore P (k + 1) s = .refused r := by simp only [runCore, h]

/-- One step of the machine's run is one of the core's where the step is the core's own move. -/
theorem core_run_succ_eq_runCore {s : State} {k : Nat} (hstep : step s = advance s)
    (hrest : ∀ t, advance s = .next t → Sys2Proof.core.run k t = runCore Config.params k t) :
    Sys2Proof.core.run (k + 1) s = runCore Config.params (k + 1) s := by
  cases ha : advance s with
  | next t => exact (core_run_next (hstep.trans ha) k).trans ((hrest t ha).trans (runCore_next ha k).symm)
  | fault f => exact (core_run_fault (hstep.trans ha) k).trans (runCore_fault ha k).symm
  | refused r => exact (core_run_refused (hstep.trans ha) k).trans (runCore_refused ha k).symm

/-- Settles O15: with no moves of the host each step is the core's own move, which leaves the host without moves. -/
theorem runWithSilentHostIsTheCoresRun : Obligations.RunWithSilentHostIsTheCoresRun := by
  unfold Obligations.RunWithSilentHostIsTheCoresRun
  intro k
  induction k with
  | zero => exact fun _ _ => rfl
  | succ k ih =>
    intro s hh
    exact core_run_succ_eq_runCore (step_silent hh) fun t ht => ih t ((advanceWith_host ht).trans hh)

end Sys2Proof.Machine
end

section
/-!
SUPPORT. The invariant along every step (spec/10_state.md section 7; spec/43_keygenerator.md R123, R129, R133), the progress it
gives, and the shape of what a `GENERATE` delivers (spec/43_keygenerator.md section 6).
-/

namespace Sys2Proof.Machine

/-! ### States of the invariant -/

/-- The invariant does not speak of the host's list. -/
theorem State.Inv.withHost {s : State} (h : s.Inv) (host : List HostMove) : { s with host := host }.Inv :=
  ⟨h.idle_clean, h.unseeded_idle, h.no_partial, h.plain_counts, h.first_counts, h.second_counts, h.rsp_formed⟩

/-- Of an idle core the invariant says only that it is clean, that its response is formed, and that without a seed no budget
was exhausted. -/
theorem inv_of_idle {s : State} (ha : s.activity = .idle) (hclean : s.phase = .first ∧ s.out = [] ∧ s.draws = 0)
    (hxh : s.seeded = false → s.xh = false) (hrsp : ∀ r, s.rsp = some r → r.Formed) : s.Inv where
  idle_clean _ := hclean
  unseeded_idle h := ⟨ha, hxh h⟩
  no_partial n h := by simp [ha] at h
  plain_counts n h := by simp [ha] at h
  first_counts n h := by simp [ha] at h
  second_counts n h := by simp [ha] at h
  rsp_formed := hrsp

theorem inv_reset (host : List HostMove) : (applyReset host).Inv :=
  inv_of_idle rfl ⟨rfl, rfl, rfl⟩ (fun _ => rfl) (fun r h => by cases h)

/-- Settles O38: the reset state is clean, unseeded and without a response. -/
theorem invariantHoldsAtReset : Obligations.InvariantHoldsAtReset := by
  unfold Obligations.InvariantHoldsAtReset
  exact inv_reset []

/-- A core that generates holds a value in `State`. -/
theorem State.Inv.value_of_generating {s : State} (hs : s.Inv) {n : Word} (ha : s.activity = .generating n) :
    ∃ v, s.state = .value v := by
  obtain hstate | hv := state_cases s
  · obtain ⟨hidle, -⟩ := hs.unseeded_idle (not_seeded_iff.2 hstate)
    rw [ha] at hidle
    cases hidle
  · exact hv

/-- A state with a value is not one without a seed. -/
theorem seeded_of_value {s : State} {v : Word} (h : s.state = .value v) : s.seeded = true := seeded_iff.2 ⟨v, h⟩

theorem formed_of_eq {r r' : Response} (hr : r.Formed) (h : some r = some r') : r'.Formed := Option.some.inj h ▸ hr

/-! ### The invariant along an accepted word -/

/-- A `GENERATE` that begins has drawn nothing and emitted nothing. -/
theorem inv_startGenerate {s : State} {n v : Word} (hs : s.state = .value v) (hr : s.rsp = none) :
    (startGenerate n s).Inv where
  idle_clean h := by cases h
  unseeded_idle h := by simp [seeded_of_value (s := startGenerate n s) hs] at h
  no_partial _ _ := hr
  plain_counts _ _ _ := ⟨rfl, rfl, Nat.zero_le _⟩
  first_counts _ _ _ _ := ⟨rfl, Nat.le_refl _, Nat.zero_le _, fun _ _ => Nat.zero_le _⟩
  second_counts _ _ _ h := by cases h
  rsp_formed r h := by simp [hr] at h

/-- An accepted word leaves a state of the invariant. -/
theorem Accepts.inv {w : CmdWord} {s t : State} (h : Accepts w s t) (hs : s.Inv) (ha : s.activity = .idle)
    (hr : s.rsp = none) : t.Inv := by
  have hclean := hs.idle_clean ha
  have hxh : s.seeded = false → s.xh = false := fun hseed => (hs.unseeded_idle hseed).2
  cases h with
  | raised c hc =>
    refine inv_of_idle (raiseFault_activity s c) ⟨rfl, rfl, rfl⟩ (fun hseed => ?_) fun r => formed_of_eq (fault_formed c)
    rw [not_seeded_iff, raiseFault_state, ← not_seeded_iff] at hseed
    simp [hxh hseed, hc]
  | begun n v hw hv => exact inv_startGenerate hv hr
  | loaded seed hw => exact inv_of_idle ha hclean (fun _ => rfl) fun r => formed_of_eq (ok_formed 0)
  | modeSet mode hw => exact inv_of_idle ha hclean hxh fun r => formed_of_eq (ok_formed 0)
  | drawn v d hw hv =>
    refine inv_of_idle ha hclean (fun hseed => ?_) fun r => formed_of_eq (ok_formed d)
    simp [not_seeded_iff] at hseed
  | answered d => exact inv_of_idle ha hclean hxh fun r => formed_of_eq (ok_formed d)

/-! ### The invariant along a transition of the sequencer -/

/-- A core that has responded with a value in `State` meets the invariant. -/
theorem inv_of_responded {t : State} {v : Word} {r : Response} (ha : t.activity = .idle)
    (hclean : t.phase = .first ∧ t.out = [] ∧ t.draws = 0) (hv : t.state = .value v) (hr : t.rsp = some r)
    (hformed : r.Formed) : t.Inv := by
  refine inv_of_idle ha hclean (fun hseed => ?_) fun r' h => formed_of_eq hformed (hr.symm.trans h)
  simp [seeded_of_value hv] at hseed

/-- The counts of the canonical sequencer between the pairs (R123, R133). -/
def FirstCounts (length : Nat) (budget : Option Nat) (draws emitted : Nat) : Prop :=
  draws % 2 = 0 ∧ 2 * emitted ≤ draws ∧ emitted ≤ length ∧ withinBudget budget draws

/-- The counts of the canonical sequencer inside a pair (R123, R133). -/
def SecondCounts (length : Nat) (budget : Option Nat) (draws emitted : Nat) : Prop :=
  draws % 2 = 1 ∧ 2 * emitted + 1 ≤ draws ∧ emitted < length ∧ withinBudget budget (draws + 1)

/-- The first draw of a pair, which is made only with bits missing and room for two draws. -/
theorem FirstCounts.draw {length : Nat} {budget : Option Nat} {draws emitted : Nat}
    (h : FirstCounts length budget draws emitted) (hl : emitted ≠ length) (ho : overBudget budget draws = false) :
    SecondCounts length budget (draws + 1) emitted := by
  obtain ⟨heven, htwice, hle, -⟩ := h
  exact ⟨by omega, by omega, by omega, overBudget_eq_false.1 ho⟩

/-- The second draw of a pair, after which at most one bit more has been emitted. -/
theorem SecondCounts.draw {length : Nat} {budget : Option Nat} {draws emitted : Nat}
    (h : SecondCounts length budget draws emitted) {emitted' : Nat} (he : emitted' ≤ emitted + 1) :
    FirstCounts length budget (draws + 1) emitted' := by
  obtain ⟨hodd, htwice, hlt, hbudget⟩ := h
  exact ⟨by omega, by omega, by omega, hbudget⟩

theorem appendPair_length_le (out : List Bit) (b1 b2 : Bit) : (appendPair out b1 b2).length ≤ out.length + 1 := by
  rw [appendPair_eq]
  split <;> simp

/-- A core that generates meets the invariant when the counts of its mode and phase hold. -/
theorem inv_of_generating {s : State} {n v : Word} (ha : s.activity = .generating n) (hv : s.state = .value v)
    (hr : s.rsp = none)
    (hplain : s.mode = .simplified → s.phase = .first ∧ s.draws = s.out.length ∧ s.out.length ≤ n.toNat)
    (hfirst : s.mode = .canonical → s.phase = .first →
      FirstCounts n.toNat (drawBudget Config.budgetMult n.toNat) s.draws s.out.length)
    (hsecond : s.mode = .canonical → s.phase = .second →
      SecondCounts n.toNat (drawBudget Config.budgetMult n.toNat) s.draws s.out.length) : s.Inv where
  idle_clean h := by simp [ha] at h
  unseeded_idle h := by simp [seeded_of_value hv] at h
  no_partial _ _ := hr
  plain_counts m h := by cases ha.symm.trans h; exact hplain
  first_counts m h := by cases ha.symm.trans h; exact hfirst
  second_counts m h := by cases ha.symm.trans h; exact hsecond
  rsp_formed r h := by simp [hr] at h

/-- A draw of the sequencer keeps the invariant. -/
theorem inv_of_running {s : State} (hs : s.Inv) {n v : Word} (ha : s.activity = .generating n)
    {f : FilterState Word} (hf : generateMove Config.params s.mode n.toNat (s.toFilter v) = .running f) :
    (s.ofFilter f).Inv := by
  have hr := hs.no_partial n ha
  cases hm : s.mode with
  | canonical =>
    rw [hm] at hf
    rcases filterMove_cases (rawDraw Config.params .canonical) n.toNat (drawBudget Config.params.budgetMult n.toNat)
      (s.toFilter v) with ⟨_, _, he⟩ | ⟨_, _, _, he⟩ | ⟨hp, hl, ho, he⟩ | ⟨hp, he⟩ <;>
      cases he.symm.trans hf
    · have hcounts := FirstCounts.draw (hs.first_counts n ha hm hp) hl ho
      exact inv_of_generating ha rfl hr (fun h => by simp [hm] at h) (fun _ h => by cases h) fun _ _ => hcounts
    · have hcounts := SecondCounts.draw (hs.second_counts n ha hm hp)
        (appendPair_length_le s.out s.b1 (rawDraw Config.params .canonical v).2)
      exact inv_of_generating ha rfl hr (fun h => by simp [hm] at h) (fun _ _ => hcounts) fun _ h => by cases h
  | simplified =>
    rw [hm] at hf
    obtain ⟨hp, hdraws, hle⟩ := hs.plain_counts n ha hm
    rcases plainMove_cases (rawDraw Config.params .simplified) n.toNat (s.toFilter v) with ⟨_, he⟩ | ⟨hl, he⟩ <;>
      cases he.symm.trans hf
    refine inv_of_generating ha rfl hr (fun _ => ⟨hp, ?_, ?_⟩) (fun h => by simp [hm] at h) fun h => by simp [hm] at h
    · simp [hdraws]
    · have hlt : s.out.length < n.toNat := Nat.lt_of_le_of_ne hle hl
      simpa using hlt

theorem inv_of_sequencer {s t : State} (hs : s.Inv) {n : Word} (ha : s.activity = .generating n)
    (h : sequencerWith Config.params n s = .next t) : t.Inv := by
  obtain ⟨v, hv, ⟨f, hf, -, rfl⟩ | ⟨-, rfl⟩ | ⟨-, -, -, -, rfl⟩⟩ := sequencerWith_cases h
  · exact inv_of_running hs ha hf
  · exact inv_of_responded (goIdle_activity s) ⟨rfl, rfl, rfl⟩ hv (respondBits_rsp _ s.out) (okBits_formed s.out)
  · exact inv_of_responded (raiseFault_activity s _) ⟨rfl, rfl, rfl⟩ ((raiseFault_state s _).trans hv)
      (raiseFault_rsp s _) (fault_formed _)

/-! ### Steps -/

/-- Settles O39: a step is a reset, an accepted word, a quiet move of an idle core or a transition of the sequencer, each of
which keeps the invariant. -/
theorem everyStepKeepsTheInvariant : Obligations.EveryStepKeepsTheInvariant := by
  unfold Obligations.EveryStepKeepsTheInvariant
  intro s t hs hstep
  obtain ⟨rest, -, rfl⟩ | ⟨w, rest, ha, -, hw⟩ | ⟨host, -, -, rfl⟩ | ⟨n, host, ha, -, hseq⟩ := step_cases hstep
  · exact inv_reset rest
  · have htaken : (takeCommand rest s).Inv :=
      inv_of_idle ha (hs.idle_clean ha) (fun hseed => (hs.unseeded_idle hseed).2) fun r h => by cases h
    exact (accepts_of_runWord hw).inv htaken ha rfl
  · exact hs.withHost host
  · exact inv_of_sequencer (hs.withHost host) ha hseq

/-- The core's own move stops only where a `GENERATE` is in progress without a value in `State`. -/
theorem advance_next {s : State} (hs : s.Inv) : ∃ t, advance s = .next t := by
  obtain ha | ⟨n, ha⟩ := activity_cases s
  · exact ⟨s, advanceWith_idle _ ha⟩
  · obtain ⟨v, hv⟩ := hs.value_of_generating ha
    rw [advance, advanceWith_generating _ ha]
    exact sequencerWith_next _ n hv

/-- Settles O40: an accepted word always goes on, and so does the core's own move under the invariant. -/
theorem machineNeverStops : Obligations.MachineNeverStops := by
  unfold Obligations.MachineNeverStops
  intro s hs
  cases hh : s.host with
  | nil =>
    rw [step_silent hh]
    exact advance_next hs
  | cons move rest =>
    cases move with
    | wait =>
      rw [step_wait hh]
      exact advance_next (hs.withHost rest)
    | reset => exact ⟨_, step_reset hh⟩
    | command w =>
      obtain ha | ⟨n, ha⟩ := activity_cases s
      · obtain ⟨t, ht, -⟩ := runWord_accepts w (takeCommand rest s)
        exact ⟨t, (step_accept ha hh).trans ht⟩
      · rw [step_busy ha hh]
        exact advance_next hs

/-! ### What a `GENERATE` delivers -/

/-- A success is no fault, so the two words differ. -/
theorem okWord_ne_faultWord (d : Word) (c : Cause) : okWord d ≠ faultWord c := by
  intro h
  have hfault := congrArg (fun w => (Response.mk w none).isFault) h
  simp at hfault

/-- Settles O48: each of the three conditions contradicts the row of the sequencer's table that raises the fault. -/
theorem exhaustionNeedsABoundModeZeroAndALength : Obligations.ExhaustionNeedsABoundModeZeroAndALength := by
  unfold Obligations.ExhaustionNeedsABoundModeZeroAndALength
  intro P s t n ha hr hle hcond h
  rw [advanceWith_generating P ha] at h
  obtain ⟨v, -, ⟨f, -, -, rfl⟩ | ⟨-, rfl⟩ | ⟨hm, -, hl, ho, -⟩⟩ := sequencerWith_cases h
  · exact ⟨rfl, by simp [hr]⟩
  · exact ⟨rfl, by simp [okWord_ne_faultWord]⟩
  · obtain hunbounded | hsimplified | rfl := hcond
    · simp [hunbounded, drawBudget] at ho
    · simp [hm] at hsimplified
    · exact absurd (Nat.le_zero.1 hle) hl

/-- Settles O49: the sequencer draws, completes with an `OUT` of the length wanted, or raises the fault. -/
theorem noPartialResults : Obligations.NoPartialResults := by
  unfold Obligations.NoPartialResults
  intro s t n hs ha hreset hstep
  obtain ⟨rest, hh, -⟩ | ⟨w, rest, hidle, -⟩ | ⟨host, hidle, -⟩ | ⟨m, host, hm, -, hseq⟩ := step_cases hstep
  · exact absurd hh (hreset rest)
  · simp [ha] at hidle
  · simp [ha] at hidle
  · cases ha.symm.trans hm
    obtain ⟨v, -, ⟨f, -, -, rfl⟩ | ⟨hlen, rfl⟩ | ⟨hmode, -, -, -, rfl⟩⟩ := sequencerWith_cases hseq
    · exact .inl ⟨ha, hs.no_partial n ha⟩
    · exact .inr ⟨rfl, _, rfl, .inl ⟨ok_isFault 0 _, s.out, rfl, hlen⟩⟩
    · exact .inr ⟨rfl, _, rfl, .inr ⟨rfl, hmode, by simp⟩⟩

end Sys2Proof.Machine
end

section
/-!
SUPPORT. Which steps write `STATUS`'s sticky flags, `CTRL.MODE` and `State`, and what the flags and the latch can change
(spec/10_state.md sections 2, 5 and 7; spec/60_exceptions.md section 3).
-/

namespace Sys2Proof.Machine

/-! ### The fields a step writes -/

/-- A transition of the sequencer keeps the mode and only sets flags. -/
theorem sequencerWith_keeps {P : Params} {n : Word} {s t : State} (h : sequencerWith P n s = .next t) :
    t.mode = s.mode ∧ (s.xh = true → t.xh = true) ∧ t.ill = s.ill ∧ t.ns = s.ns := by
  obtain ⟨v, -, ⟨f, -, -, rfl⟩ | ⟨-, rfl⟩ | ⟨-, -, -, -, rfl⟩⟩ := sequencerWith_cases h <;> simp +contextual

/-- Only an accepted `LOADSEED` clears a sticky flag. -/
theorem Accepts.sticky {w : CmdWord} {s t : State} (h : Accepts w s t)
    (hw : ∀ seed, decode w ≠ .ok (.loadseed seed)) :
    (s.xh = true → t.xh = true) ∧ (s.ill = true → t.ill = true) ∧ (s.ns = true → t.ns = true) := by
  cases h with
  | raised c hc => simp +contextual
  | loaded seed hseed => exact absurd hseed (hw seed)
  | modeSet | begun | drawn | answered => exact ⟨id, id, id⟩

/-- Settles O33: a quiet move keeps the flags, a transition of the sequencer sets at most one, and an accepted word that is no
`LOADSEED` clears none. -/
theorem stickyFlagsStaySet : Obligations.StickyFlagsStaySet := by
  unfold Obligations.StickyFlagsStaySet
  intro s t hstep hreset hload
  obtain ⟨rest, hh, -⟩ | ⟨w, rest, ha, hh, hw⟩ | ⟨host, -, -, rfl⟩ | ⟨n, host, -, -, hseq⟩ := step_cases hstep
  · exact absurd hh (hreset rest)
  · exact (accepts_of_runWord hw).sticky fun seed => hload w rest seed ha hh
  · exact ⟨id, id, id⟩
  · obtain ⟨-, hxh, hill, hns⟩ := sequencerWith_keeps hseq
    exact ⟨hxh, hill.trans, hns.trans⟩

/-- Only an accepted `SETMODE` writes the mode. -/
theorem Accepts.mode {w : CmdWord} {s t : State} (h : Accepts w s t) :
    t.mode = s.mode ∨ ∃ m, decode w = .ok (.setmode m) ∧ t.mode = m := by
  cases h with
  | raised c hc => exact .inl (raiseFault_mode s c)
  | modeSet m hw => exact .inr ⟨m, hw, rfl⟩
  | loaded | begun | drawn | answered => exact .inl rfl

/-- Settles O35: of the steps that change the mode, a reset gives it its reset value and an accepted word is a `SETMODE`. -/
theorem modeChangesBySetmodeOrResetOnly : Obligations.ModeChangesBySetmodeOrResetOnly := by
  unfold Obligations.ModeChangesBySetmodeOrResetOnly
  intro s t hstep hne
  obtain ⟨rest, hh, rfl⟩ | ⟨w, rest, ha, hh, hw⟩ | ⟨host, -, -, rfl⟩ | ⟨n, host, -, -, hseq⟩ := step_cases hstep
  · exact .inl ⟨rest, hh, rfl⟩
  · obtain hkept | ⟨m, hm, hmode⟩ := (accepts_of_runWord hw).mode
    · exact absurd hkept hne
    · exact .inr ⟨w, rest, m, ha, hh, hm, hmode⟩
  · exact absurd rfl hne
  · exact absurd (sequencerWith_keeps hseq).1 hne

/-- Only an accepted `LOADSEED` or `DRAW` writes `State`. -/
theorem Accepts.state {w : CmdWord} {s t : State} (h : Accepts w s t) :
    t.state = s.state ∨ (∃ seed, decode w = .ok (.loadseed seed) ∧ t.state = .value seed) ∨
      ∃ v, decode w = .ok .draw ∧ s.state = .value v ∧ t.state = .value (drawMap v) := by
  cases h with
  | raised c hc => exact .inl (raiseFault_state s c)
  | loaded seed hw => exact .inr (.inl ⟨seed, hw, rfl⟩)
  | drawn v d hw hs => exact .inr (.inr ⟨v, hw, hs, rfl⟩)
  | modeSet | begun | answered => exact .inl rfl

/-- A transition of the sequencer that writes `State` is a draw. -/
theorem sequencerWith_state {P : Params} {n : Word} {s t : State} (h : sequencerWith P n s = .next t) :
    t.state = s.state ∨ ∃ v, s.state = .value v ∧ t.state = .value (drawMap v) := by
  obtain ⟨v, hv, ⟨f, -, hsrc, rfl⟩ | ⟨-, rfl⟩ | ⟨-, -, -, -, rfl⟩⟩ := sequencerWith_cases h
  · exact .inr ⟨v, hv, by rw [ofFilter_state, hsrc]⟩
  · exact .inl rfl
  · exact .inl (raiseFault_state s _)

/-- Settles O36: of the steps that change `State`, a reset takes its value away, an accepted word is a `LOADSEED` or a `DRAW`,
and a transition of the sequencer is a draw. -/
theorem stateIsWrittenBySeedAndDrawsOnly : Obligations.StateIsWrittenBySeedAndDrawsOnly := by
  unfold Obligations.StateIsWrittenBySeedAndDrawsOnly
  intro s t hstep hne
  obtain ⟨rest, hh, rfl⟩ | ⟨w, rest, ha, hh, hw⟩ | ⟨host, -, -, rfl⟩ | ⟨n, host, ha, -, hseq⟩ := step_cases hstep
  · exact .inl ⟨rest, hh, rfl⟩
  · obtain hkept | ⟨seed, hseed, hstate⟩ | ⟨v, hdraw, hv, hstate⟩ := (accepts_of_runWord hw).state
    · exact absurd hkept hne
    · exact .inr (.inl ⟨w, rest, seed, ha, hh, hseed, hstate⟩)
    · exact .inr (.inr ⟨v, hv, hstate, .inl ⟨w, rest, ha, hh, hdraw⟩⟩)
  · exact absurd rfl hne
  · obtain hkept | ⟨v, hv, hstate⟩ := sequencerWith_state hseq
    · exact absurd hkept hne
    · exact .inr (.inr ⟨v, hv, hstate, .inr ⟨n, ha⟩⟩)

/-! ### The latch gates nothing between pairs -/

/-- Settles O37: a core between pairs with another value in the latch is equal to it but for the latch, and a step keeps that
relation, which inside a pair is equality. -/
theorem latchIsWrittenBeforeItIsRead : Obligations.LatchIsWrittenBeforeItIsRead := by
  unfold Obligations.LatchIsWrittenBeforeItIsRead
  intro s t b hp hstep
  obtain ⟨u, hu, heq, hsecond⟩ := step_sameNextButLatch (sameButLatch_of_first hp b) t hstep
  exact ⟨u, hu, heq.symm, hsecond⟩

/-! ### The sticky flags gate nothing -/

/-- The core with other values in the sticky flags. -/
def State.withFlags (s : State) (x i n : Bit) : State := { s with xh := x, ill := i, ns := n }

/-- Where the first outcome is a next state, the second is one too, equal but for the sticky flags. -/
def SameNextButFlags (o p : Result) : Prop := ∀ t, o = .next t → ∃ x i n, p = .next (t.withFlags x i n)

theorem SameNextButFlags.of_next {o p : Result} {t : State} {x i n : Bit} (ho : o = .next t)
    (hp : p = .next (t.withFlags x i n)) : SameNextButFlags o p := by
  subst ho
  rintro _ ⟨⟩
  exact ⟨x, i, n, hp⟩

/-- The state that raising a fault leaves does not depend on the flags, but for the flags themselves. -/
theorem raiseFault_sameNextButFlags (c : Cause) (s : State) (x i n : Bit) :
    SameNextButFlags (.next (raiseFault c s)) (.next (raiseFault c (s.withFlags x i n))) := by
  cases c with
  | illegalCommand => exact .of_next (x := x) (i := true) (n := n) rfl rfl
  | notSeeded => exact .of_next (x := x) (i := i) (n := true) rfl rfl
  | extractionExhausted => exact .of_next (x := true) (i := i) (n := n) rfl rfl

theorem withSeed_sameNextButFlags {s : State} {x i n : Bit} {k k' : Word → Result}
    (hk : ∀ v, SameNextButFlags (k v) (k' v)) : SameNextButFlags (withSeed s k) (withSeed (s.withFlags x i n) k') := by
  obtain hs | ⟨v, hs⟩ := state_cases s
  · rw [withSeed_noValue hs, withSeed_noValue (s := s.withFlags x i n) hs]
    exact raiseFault_sameNextButFlags .notSeeded s x i n
  · rw [withSeed_value hs, withSeed_value (s := s.withFlags x i n) hs]
    exact hk v

/-- No operation but `RDSTATUS` reads a sticky flag. -/
theorem exec_sameNextButFlags {op : Instr} (hop : op ≠ .rdstatus) (s : State) (x i n : Bit) :
    SameNextButFlags (exec op s) (exec op (s.withFlags x i n)) := by
  cases op with
  | rdstatus => exact absurd rfl hop
  | generate length => exact withSeed_sameNextButFlags fun _ => .of_next (x := x) (i := i) (n := n) rfl rfl
  | draw => exact withSeed_sameNextButFlags fun _ => .of_next (x := x) (i := i) (n := n) rfl rfl
  | rdstate => exact withSeed_sameNextButFlags fun _ => .of_next (x := x) (i := i) (n := n) rfl rfl
  | loadseed seed => exact .of_next (x := false) (i := false) (n := false) (exec_loadseed seed s) rfl
  | setmode mode => exact .of_next (x := x) (i := i) (n := n) (exec_setmode mode s) rfl
  | step a => exact .of_next (x := x) (i := i) (n := n) (exec_step a s) rfl
  | rotr3 a => exact .of_next (x := x) (i := i) (n := n) (exec_rotr3 a s) rfl
  | extract a => exact .of_next (x := x) (i := i) (n := n) (exec_extract a s) rfl
  | sboxrd idx => exact .of_next (x := x) (i := i) (n := n) (exec_sboxrd idx s) rfl
  | vnpair b1 b2 => exact .of_next (x := x) (i := i) (n := n) (exec_vnpair b1 b2 s) rfl

theorem runWord_sameNextButFlags {w : CmdWord} (hw : decode w ≠ .ok .rdstatus) (s : State) (x i n : Bit) :
    SameNextButFlags (runWord w s) (runWord w (s.withFlags x i n)) := by
  cases hd : decode w with
  | ok op =>
    rw [runWord_ok hd, runWord_ok hd]
    exact exec_sameNextButFlags (fun h => hw (h ▸ hd)) s x i n
  | error e =>
    rw [runWord_illegal hd, runWord_illegal hd]
    exact raiseFault_sameNextButFlags .illegalCommand s x i n

/-- The sequencer makes the same move whatever the flags hold. -/
theorem sequencerWith_sameNextButFlags (P : Params) (length : Word) (s : State) (x i n : Bit) :
    SameNextButFlags (sequencerWith P length s) (sequencerWith P length (s.withFlags x i n)) := by
  obtain hs | ⟨v, hs⟩ := state_cases s
  · intro t ht
    simp [sequencerWith, hs] at ht
  · have hmove : sequencerWith P length (s.withFlags x i n) =
        applyMove (s.withFlags x i n) (generateMove P s.mode length.toNat (s.toFilter v)) :=
      sequencerWith_value (s := s.withFlags x i n) hs
    rw [sequencerWith_value hs, hmove]
    cases generateMove P s.mode length.toNat (s.toFilter v) with
    | running f => exact .of_next (x := x) (i := i) (n := n) rfl rfl
    | done bits => exact .of_next (x := x) (i := i) (n := n) rfl rfl
    | exhausted => exact raiseFault_sameNextButFlags .extractionExhausted s x i n

theorem advance_sameNextButFlags (s : State) (x i n : Bit) :
    SameNextButFlags (advance s) (advance (s.withFlags x i n)) := by
  obtain ha | ⟨length, ha⟩ := activity_cases s
  · exact .of_next (advanceWith_idle _ ha) (advanceWith_idle (s := s.withFlags x i n) _ ha)
  · rw [advance, advance, advanceWith_generating _ ha, advanceWith_generating (s := s.withFlags x i n) _ ha]
    exact sequencerWith_sameNextButFlags _ length s x i n

/-- A step that accepts no `RDSTATUS` does not read the flags, whatever the host's next move. -/
theorem step_sameNextButFlags {s : State}
    (hw : ∀ w rest, s.activity = .idle → s.host = .command w :: rest → decode w ≠ .ok .rdstatus) (x i n : Bit) :
    SameNextButFlags (step s) (step (s.withFlags x i n)) := by
  cases hh : s.host with
  | nil =>
    rw [step_silent hh, step_silent (s := s.withFlags x i n) hh]
    exact advance_sameNextButFlags s x i n
  | cons move rest =>
    cases move with
    | wait =>
      rw [step_wait hh, step_wait (s := s.withFlags x i n) hh]
      exact advance_sameNextButFlags { s with host := rest } x i n
    | reset =>
      rw [step_reset hh, step_reset (s := s.withFlags x i n) hh]
      exact .of_next (x := false) (i := false) (n := false) rfl rfl
    | command w =>
      obtain ha | ⟨length, ha⟩ := activity_cases s
      · rw [step_accept ha hh, step_accept (s := s.withFlags x i n) ha hh]
        exact runWord_sameNextButFlags (hw w rest ha hh) (takeCommand rest s) x i n
      · rw [step_busy ha hh, step_busy (s := s.withFlags x i n) ha hh]
        exact advance_sameNextButFlags s x i n

/-- Settles O34: with other flags the step goes on to a state that differs in the flags only. -/
theorem stickyFlagsGateNothing : Obligations.StickyFlagsGateNothing := by
  unfold Obligations.StickyFlagsGateNothing
  intro s t x i n hstep hw
  obtain ⟨x', i', n', hu⟩ := step_sameNextButFlags hw x i n t hstep
  exact ⟨t.withFlags x' i' n', hu, rfl⟩

end Sys2Proof.Machine
end

section
/-!
SUPPORT. The two branches of the state transform (spec/40_state_transformer.md R81, R82, R86), the bit of a `DRAW`
(spec/42_substitutor.md R104 to R107), the number an output sequence denotes (spec/20_memory.md R45) and the pseudo-operation
`INIT` (spec/30_encoding.md R71).
-/

namespace Sys2Proof.Machine

/-! ### The even branch -/

/-- The bits of `K` below 64: the even ones are 1. -/
theorem K_getLsbD : ∀ i < 64, K.getLsbD i = (i % 2 == 0) := by decide

/-- Bit 0 of an even word is 0, so shifting it out is rotating it to bit 63. -/
theorem ushiftRight_one_of_even {s : Word} (h : s.getLsbD 0 = false) : s >>> 1 = rotr64 s 1 := by
  apply BitVec.eq_of_getLsbD_eq
  intro i hi
  rw [BitVec.getLsbD_ushiftRight, rotr64_getLsbD s (by decide) (by decide), decide_eq_true hi, Bool.true_and]
  by_cases hlast : i = 63
  · subst hlast
    exact (BitVec.getLsbD_of_ge s _ (by decide)).trans h.symm
  · have hin : (i + 1) % 64 = 1 + i := by omega
    rw [hin]

theorem transform_even_getLsbD {s : Word} (h : s.getLsbD 0 = false) {i : Nat} (hi : i < 64) :
    (transform s).getLsbD i = (s.getLsbD (1 + i) ^^ (i % 2 == 0)) := by
  rw [transform_even h, BitVec.getLsbD_xor, BitVec.getLsbD_ushiftRight, K_getLsbD i hi]

theorem transform_even_toNat_lt {s : Word} (h : s.getLsbD 0 = false) : (transform s).toNat < 2 ^ 63 := by
  have hs : s.toNat < 2 ^ 64 := s.isLt
  rw [transform_even_toNat h]
  exact Nat.xor_lt_two_pow (by omega) (by decide)

/-! ### The odd branch -/

/-- Three times `M + d` and 1 more is `3 * M` above `3 * d + 1`, which is below `M` (R82). -/
theorem transform_odd_toNat_of_ge {s : Word} (h : s.getLsbD 0 = true) {d : Nat} (hd : s.toNat = 2 ^ 64 - 59 + d) :
    (transform s).toNat = 3 * d + 1 := by
  have hs : s.toNat < 2 ^ 64 := s.isLt
  rw [transform_odd h]
  omega

/-- Settles O18: the even branch bit by bit; the odd one by division in natural numbers below `2 ^ 64`. -/
theorem transformBranchesHaveTheirRanges : Obligations.TransformBranchesHaveTheirRanges := by
  unfold Obligations.TransformBranchesHaveTheirRanges
  refine ⟨fun s h => ?even, fun s h => ?odd, by decide, by decide⟩
  case even =>
    have hshift := ushiftRight_one_of_even h
    refine ⟨transform_even_toNat_lt h, hshift, ?_, ?_, ?_, fun i hi => ?_⟩
    · rw [transform_even h, hshift]
      rfl
    · rw [transform_even_getLsbD h (by decide), BitVec.getLsbD_of_ge s _ (by decide)]
      rfl
    · rw [transform_even_getLsbD h (by decide)]
      exact Bool.xor_true _
    · rw [transform_even_getLsbD h (by omega), Nat.add_comm]
  case odd =>
    have hs : s.toNat < 2 ^ 64 := s.isLt
    refine ⟨?_, by omega, by omega, fun d hd => transform_odd_toNat_of_ge h hd⟩
    rw [transform_odd h]
    exact Nat.mod_lt _ (by decide)

/-! ### `EXTRACT` over the nibbles, and the bit of a `DRAW` -/

/-- Settles O24: the nibbles that extract to 1 are the indices of the odd entries. -/
theorem exactlyEightNibblesExtractToOne : Obligations.ExactlyEightNibblesExtractToOne := by
  unfold Obligations.ExactlyEightNibblesExtractToOne
  intro sbox
  simp only [extract_nibbleWord]
  exact card_oddEntries sbox

/-- Settles O25: the low nibble of the rotated state is bits 6 to 3 of the transformed one, and its bit 0 is bit 3. -/
theorem drawAdvancesStateAndRespondsTheRawBit : Obligations.DrawAdvancesStateAndRespondsTheRawBit := by
  unfold Obligations.DrawAdvancesStateAndRespondsTheRawBit
  intro s v hv
  refine ⟨rawBit Config.params s.mode (drawMap v), exec_draw_value hv, fun hm => ?_, fun hm => ?_⟩
  · rw [hm, ← lowNibble_rotr3]
    rfl
  · rw [hm]
    exact rotr3_getLsbD_of_lt (transform v) (by decide)

/-! ### Output bits as a number -/

/-- One more bit doubles the number before it. -/
theorem packBits_concat (bits : List Bit) (b : Bit) : packBits (bits ++ [b]) = 2 * packBits bits + b.toNat := by
  rw [packBits, List.foldl_concat]
  rfl

/-- Settles O52: by induction on the last bit, which doubles the weights of the others. -/
theorem outputPacksFirstBitHighest : Obligations.OutputPacksFirstBitHighest := by
  unfold Obligations.OutputPacksFirstBitHighest
  intro bits
  induction bits using List.reverseRecOn with
  | nil => rfl
  | append_singleton bits b ih =>
    have weights : ∀ i ∈ List.range bits.length,
        ((bits ++ [b]).getD i false).toNat * 2 ^ (bits.length + 1 - 1 - i) =
          2 * ((bits.getD i false).toNat * 2 ^ (bits.length - 1 - i)) := by
      intro i hi
      have hlt : i < bits.length := List.mem_range.1 hi
      have hexp : bits.length + 1 - 1 - i = (bits.length - 1 - i) + 1 := by omega
      rw [List.getD_append _ _ _ _ hlt, hexp, Nat.pow_succ]
      ring
    rw [packBits_concat, ih, List.length_append, List.length_singleton, List.range_succ, List.map_append,
      List.sum_append, List.map_congr_left weights, List.sum_map_mul_left]
    simp

/-! ### `INIT` -/

/-- An idle core that is presented the word of an operation runs that operation. -/
theorem step_encode {s : State} {i : Instr} {rest : List HostMove} (ha : s.activity = .idle)
    (hh : s.host = .command (encode i) :: rest) : step s = exec i (takeCommand rest s) := by
  rw [step_accept ha hh, runWord_ok (decode_encode i)]

/-- Settles O53: the idle core accepts the two words in two steps, and is idle between them. -/
theorem initLeavesAFreshInstance : Obligations.InitLeavesAFreshInstance := by
  unfold Obligations.InitLeavesAFreshInstance
  intro s seed mode ha hh
  have hsetmode : step s = .next
      { s with mode := mode, rsp := some ⟨okWord 0, none⟩, host := [.command (encode (.loadseed seed))] } :=
    step_encode ha hh
  have hloadseed : step
      { s with mode := mode, rsp := some ⟨okWord 0, none⟩, host := [.command (encode (.loadseed seed))] } = .next
      { s with state := .value seed, mode := mode, xh := false, ill := false, ns := false,
               rsp := some ⟨okWord 0, none⟩, host := [] } :=
    step_encode (s := { s with mode := mode, rsp := _, host := _ }) ha rfl
  exact (core_run_next hsetmode 1).trans (core_run_next hloadseed 0)

end Sys2Proof.Machine
end

section
/-!
SUPPORT. The filter in closed form (spec/43_keygenerator.md R122): over any source, the bits that the first `j` pairs emit, and
the verdict of tests A and B before pair `j`. The filter returns the first verdict there is, from which its counts (R133), its
continuation (R131), its end under a finite budget (R123) and its results on the synthetic sources (R136) follow.
-/

namespace Sys2Proof.Machine

/-! ### Pairs of a source -/

section Pairs

variable {σ : Type} (src : σ → σ × Bit)

/-- The source after one draw. -/
def srcNext (q : σ) : σ := (src q).1

/-- The source after a pair of draws. -/
def pairNext (q : σ) : σ := (src (src q).1).1

/-- The bit a pair emits, if any (R120). -/
def pairOut (q : σ) : List Bit := if (src q).2 ≠ (src (src q).1).2 then [(src q).2] else []

/-- The bits the first `j` pairs emit, first emitted bit first. -/
def pairBits (q : σ) : Nat → List Bit
  | 0 => []
  | j + 1 => pairBits q j ++ pairOut src ((pairNext src)^[j] q)

@[simp] theorem pairBits_zero (q : σ) : pairBits src q 0 = [] := rfl

theorem pairBits_succ (q : σ) (j : Nat) :
    pairBits src q (j + 1) = pairBits src q j ++ pairOut src ((pairNext src)^[j] q) := rfl

/-- A pair is two draws. -/
theorem pairNext_iterate (q : σ) (j : Nat) : (pairNext src)^[j] q = (srcNext src)^[2 * j] q := by
  rw [Function.iterate_mul]
  rfl

theorem pairOut_length_le (q : σ) : (pairOut src q).length ≤ 1 := by
  rw [pairOut]
  split <;> simp

theorem pairBits_length_le (q : σ) (j : Nat) : (pairBits src q j).length ≤ j := by
  induction j with
  | zero => exact Nat.le_refl 0
  | succ j ih =>
    have hpair := pairOut_length_le src ((pairNext src)^[j] q)
    rw [pairBits_succ, List.length_append]
    omega

/-- The bits of `i + j` pairs are those of `i` pairs and of the next `j`. -/
theorem pairBits_add (q : σ) (i j : Nat) :
    pairBits src q (i + j) = pairBits src q i ++ pairBits src ((pairNext src)^[i] q) j := by
  induction j with
  | zero => simp
  | succ j ih =>
    rw [← Nat.add_assoc, pairBits_succ, pairBits_succ, ih, List.append_assoc, ← Function.iterate_add_apply,
      Nat.add_comm i j]

/-! ### The verdict before a pair -/

/-- What tests A and B say before pair `j`: the end of the filter, or none when the pair is drawn (R122). -/
def pairVerdict (q : σ) (length : Nat) (budget : Option Nat) (j : Nat) : Option (FilterEnd σ) :=
  if (pairBits src q j).length = length then
    some (.done ((pairNext src)^[j] q) (pairBits src q j) (2 * j))
  else if overBudget budget (2 * j) then some (.exhausted ((pairNext src)^[j] q) (2 * j))
  else none

variable {src} {q u : σ} {length : Nat} {budget : Option Nat} {fuel j draws : Nat} {out : List Bit} {e : FilterEnd σ}

theorem pairVerdict_eq_none_iff : pairVerdict src q length budget j = none ↔
    (pairBits src q j).length ≠ length ∧ withinBudget budget (2 * j + 2) := by
  rw [pairVerdict, ← overBudget_eq_false]
  split
  · simp [*]
  · cases overBudget budget (2 * j) <;> simp [*]

theorem pairVerdict_eq_done_iff : pairVerdict src q length budget j = some (.done u out draws) ↔
    (pairBits src q j).length = length ∧ u = (pairNext src)^[j] q ∧ out = pairBits src q j ∧ draws = 2 * j := by
  rw [pairVerdict]
  split
  · simp only [Option.some.injEq, FilterEnd.done.injEq, *, true_and, eq_comm]
  · cases overBudget budget (2 * j) <;> simp [*]

theorem pairVerdict_eq_exhausted_iff : pairVerdict src q length budget j = some (.exhausted u draws) ↔
    (pairBits src q j).length ≠ length ∧ overBudget budget (2 * j) = true ∧ u = (pairNext src)^[j] q ∧
      draws = 2 * j := by
  rw [pairVerdict]
  split
  next h => simp [h]
  next h => cases overBudget budget (2 * j) <;> simp [h, eq_comm (a := u), eq_comm (a := draws)]

/-! ### The filter is its first verdict -/

/-- A turn of the loop before pair `j` gives that pair's verdict, or draws the pair. -/
theorem vnFilterLoop_pair (fuel j : Nat) :
    vnFilterLoop src length budget (fuel + 1) ((pairNext src)^[j] q) (pairBits src q j) (2 * j) =
      (pairVerdict src q length budget j).orElse fun _ =>
        vnFilterLoop src length budget fuel ((pairNext src)^[j + 1] q) (pairBits src q (j + 1)) (2 * (j + 1)) := by
  have hout : (if (src ((pairNext src)^[j] q)).2 ≠ (src (src ((pairNext src)^[j] q)).1).2
      then pairBits src q j ++ [(src ((pairNext src)^[j] q)).2] else pairBits src q j) = pairBits src q (j + 1) := by
    rw [pairBits_succ, pairOut]
    split <;> simp
  rw [vnFilterLoop_succ, hout, pairVerdict, Function.iterate_succ_apply']
  split
  · rfl
  · split <;> rfl

/-- The loop that has come to pair `j` returns the first verdict from there on. -/
theorem vnFilterLoop_eq_some_iff : ∀ fuel j : Nat,
    vnFilterLoop src length budget fuel ((pairNext src)^[j] q) (pairBits src q j) (2 * j) = some e ↔
      ∃ i < fuel, pairVerdict src q length budget (j + i) = some e ∧
        ∀ k < i, pairVerdict src q length budget (j + k) = none := by
  intro fuel
  induction fuel with
  | zero => simp [vnFilterLoop]
  | succ fuel ih =>
    intro j
    rw [vnFilterLoop_pair]
    cases hv : pairVerdict src q length budget j with
    | some d =>
      constructor
      · intro h
        exact ⟨0, Nat.succ_pos fuel, hv.trans h, fun k hk => absurd hk (Nat.not_lt_zero k)⟩
      · rintro ⟨i, -, hi, hbefore⟩
        cases i with
        | zero => exact hv.symm.trans hi
        | succ i => exact absurd (hv.symm.trans (hbefore 0 i.succ_pos)) (by simp)
    | none =>
      rw [Option.orElse_none, ih]
      constructor
      · rintro ⟨i, hi, hverdict, hbefore⟩
        refine ⟨i + 1, Nat.succ_lt_succ hi, by rwa [Nat.add_right_comm] at hverdict, fun k hk => ?_⟩
        cases k with
        | zero => exact hv
        | succ k =>
          have hnone := hbefore k (Nat.lt_of_succ_lt_succ hk)
          rwa [Nat.add_right_comm] at hnone
      · rintro ⟨i, hi, hverdict, hbefore⟩
        cases i with
        | zero => exact absurd (hv.symm.trans hverdict) (by simp)
        | succ i =>
          refine ⟨i, Nat.lt_of_succ_lt_succ hi, by rwa [Nat.add_right_comm], fun k hk => ?_⟩
          have hnone := hbefore (k + 1) (Nat.succ_lt_succ hk)
          rwa [Nat.add_right_comm]

/-- The filter returns `e` exactly when `e` is the first verdict and the turns suffice to come to it. -/
theorem vnFilter_eq_some_iff : vnFilter src q length budget fuel = some e ↔
    ∃ j < fuel, pairVerdict src q length budget j = some e ∧ ∀ i < j, pairVerdict src q length budget i = none := by
  have h := vnFilterLoop_eq_some_iff (src := src) (q := q) (length := length) (budget := budget) (e := e) fuel 0
  simp only [Nat.zero_add] at h
  exact h

/-- The filter does not return exactly when every turn draws its pair. -/
theorem vnFilter_eq_none_iff : vnFilter src q length budget fuel = none ↔
    ∀ j < fuel, pairVerdict src q length budget j = none := by
  constructor
  · intro h j
    induction j using Nat.strong_induction_on with
    | _ j ih =>
      intro hj
      cases hv : pairVerdict src q length budget j with
      | none => rfl
      | some e =>
        have hsome := vnFilter_eq_some_iff.2 ⟨j, hj, hv, fun i hi => ih i hi (Nat.lt_trans hi hj)⟩
        exact absurd (h.symm.trans hsome) (by simp)
  · intro h
    cases hf : vnFilter src q length budget fuel with
    | none => rfl
    | some e =>
      obtain ⟨j, hj, hv, -⟩ := vnFilter_eq_some_iff.1 hf
      exact absurd ((h j hj).symm.trans hv) (by simp)

/-- The draws before a verdict are within the budget. -/
theorem withinBudget_of_pairs (h : ∀ i < j, pairVerdict src q length budget i = none) :
    withinBudget budget (2 * j) := by
  cases j with
  | zero => exact fun _ _ => Nat.zero_le _
  | succ j => exact (pairVerdict_eq_none_iff.1 (h j (Nat.lt_succ_self j))).2

end Pairs

/-! ### A finite budget -/

/-- Settles O46: under the budget no more than half of it in pairs can be drawn. -/
theorem finiteBudgetMakesTheFilterEnd : Obligations.FiniteBudgetMakesTheFilterEnd := by
  unfold Obligations.FiniteBudgetMakesTheFilterEnd
  intro σ src q n budget
  refine Option.ne_none_iff_exists'.1 fun hnone => ?_
  have hlast := vnFilter_eq_none_iff.1 hnone (budget / 2) (Nat.lt_succ_self _)
  have hwithin := (pairVerdict_eq_none_iff.1 hlast).2 budget rfl
  omega

/-! ### Counts -/

/-- A pair that emits has two different bits, the first of which is emitted. -/
theorem pairOut_ne_nil {σ : Type} {src : σ → σ × Bit} {q : σ} (h : pairOut src q ≠ []) :
    pairOut src q = [(src q).2] ∧ (src (srcNext src q)).2 = !(src q).2 := by
  rw [pairOut] at h ⊢
  split at h
  next hne => exact ⟨if_pos hne, (Bool.eq_not_of_ne (Ne.symm hne))⟩
  next => exact absurd rfl h

/-- The pair before a completion emitted the last bit. -/
theorem last_pair_emits {σ : Type} {src : σ → σ × Bit} {q : σ} {length j : Nat}
    (hlen : (pairBits src q (j + 1)).length = length) (hbefore : (pairBits src q j).length ≠ length) :
    ∃ b, (pairBits src q (j + 1)).getLast? = some b ∧ (src ((srcNext src)^[2 * j] q)).2 = b ∧
      (src ((srcNext src)^[2 * j + 1] q)).2 = !b := by
  have hemits : pairOut src ((pairNext src)^[j] q) ≠ [] := by
    intro hnil
    rw [pairBits_succ, hnil, List.append_nil] at hlen
    exact hbefore hlen
  obtain ⟨hout, hsecond⟩ := pairOut_ne_nil hemits
  rw [pairNext_iterate] at hout hsecond
  refine ⟨_, ?_, rfl, ?_⟩
  · rw [pairBits_succ, pairNext_iterate, hout, List.getLast?_concat]
  · rw [Function.iterate_succ_apply']
    exact hsecond

/-- Settles O47: read off the first verdict and the pairs before it. -/
theorem filterCounts : Obligations.FilterCounts := by
  unfold Obligations.FilterCounts
  intro σ src q n budget fuel
  constructor
  · intro u out draws h
    obtain ⟨j, -, hv, hbefore⟩ := vnFilter_eq_some_iff.1 h
    obtain ⟨hlen, rfl, rfl, rfl⟩ := pairVerdict_eq_done_iff.1 hv
    have hle := pairBits_length_le src q j
    refine ⟨hlen, by omega, by omega, withinBudget_of_pairs hbefore, pairNext_iterate src q j, fun hn => ?_⟩
    cases j with
    | zero => exact absurd hlen (Nat.ne_of_lt hn)
    | succ j => exact last_pair_emits hlen (pairVerdict_eq_none_iff.1 (hbefore j (Nat.lt_succ_self j))).1
  · intro u draws h
    obtain ⟨j, -, hv, hbefore⟩ := vnFilter_eq_some_iff.1 h
    obtain ⟨-, hover, rfl, rfl⟩ := pairVerdict_eq_exhausted_iff.1 hv
    obtain ⟨b, hb, hlt⟩ := overBudget_eq_true.1 hover
    exact ⟨by omega, pairNext_iterate src q j, b, hb, withinBudget_of_pairs hbefore b hb, hlt⟩

/-! ### Continuation -/

/-- A filter that is done has drawn the least number of pairs that emit its length. -/
theorem vnFilter_done {σ : Type} {src : σ → σ × Bit} {q u : σ} {length draws fuel : Nat} {budget : Option Nat}
    {out : List Bit} (h : vnFilter src q length budget fuel = some (.done u out draws)) :
    ∃ j, (pairBits src q j).length = length ∧ (∀ i < j, (pairBits src q i).length ≠ length) ∧
      u = (pairNext src)^[j] q ∧ out = pairBits src q j ∧ draws = 2 * j := by
  obtain ⟨j, -, hv, hbefore⟩ := vnFilter_eq_some_iff.1 h
  obtain ⟨hlen, hu, hout, hdraws⟩ := pairVerdict_eq_done_iff.1 hv
  exact ⟨j, hlen, fun i hi => (pairVerdict_eq_none_iff.1 (hbefore i hi)).1, hu, hout, hdraws⟩

theorem pairBits_length_mono {σ : Type} (src : σ → σ × Bit) (q : σ) {i j : Nat} (h : i ≤ j) :
    (pairBits src q i).length ≤ (pairBits src q j).length := by
  obtain ⟨k, rfl⟩ := Nat.exists_eq_add_of_le h
  rw [pairBits_add, List.length_append]
  exact Nat.le_add_right _ _

/-- The least number of pairs for `a + b` bits is the least for `a`, and from there the least for `b`. -/
theorem least_pairs_add {σ : Type} {src : σ → σ × Bit} {q : σ} {a b i j k : Nat}
    (hi : (pairBits src q i).length = a) (hj : (pairBits src ((pairNext src)^[i] q) j).length = b)
    (hjleast : ∀ m < j, (pairBits src ((pairNext src)^[i] q) m).length ≠ b)
    (hileast : ∀ m < i, (pairBits src q m).length ≠ a)
    (hk : (pairBits src q k).length = a + b) (hkleast : ∀ m < k, (pairBits src q m).length ≠ a + b) : k = i + j := by
  have hsum : (pairBits src q (i + j)).length = a + b := by rw [pairBits_add, List.length_append, hi, hj]
  have hle : k ≤ i + j := Nat.le_of_not_lt fun hlt => hkleast _ hlt hsum
  have hik : i ≤ k := by
    by_contra hlt
    have hmono := pairBits_length_mono src q (Nat.le_of_not_le hlt)
    exact hileast k (Nat.lt_of_not_le hlt) (by omega)
  obtain ⟨m, rfl⟩ := Nat.exists_eq_add_of_le hik
  rw [pairBits_add, List.length_append, hi] at hk
  have hjm : j ≤ m := Nat.le_of_not_lt fun hlt => hjleast m hlt (by omega)
  omega

/-- Two filters one after the other give what one gives, provided none is exhausted (R131). -/
theorem vnFilter_continues {σ : Type} {src : σ → σ × Bit} {q q1 q2 q3 : σ} {a b d1 d2 d3 f1 f2 f3 : Nat}
    {o1 o2 o3 : List Bit} {B1 B2 B3 : Option Nat} (h1 : vnFilter src q a B1 f1 = some (.done q1 o1 d1))
    (h2 : vnFilter src q1 b B2 f2 = some (.done q2 o2 d2))
    (h3 : vnFilter src q (a + b) B3 f3 = some (.done q3 o3 d3)) : q3 = q2 ∧ o3 = o1 ++ o2 ∧ d3 = d1 + d2 := by
  obtain ⟨i, hi, hileast, rfl, rfl, rfl⟩ := vnFilter_done h1
  obtain ⟨j, hj, hjleast, rfl, rfl, rfl⟩ := vnFilter_done h2
  obtain ⟨k, hk, hkleast, rfl, rfl, rfl⟩ := vnFilter_done h3
  obtain rfl := least_pairs_add hi hj hjleast hileast hk hkleast
  exact ⟨by rw [Nat.add_comm, Function.iterate_add_apply], pairBits_add src q i j, by omega⟩

/-! ### The synthetic sources -/

/-- A source that is a position in a pattern of bits. -/
def patternSrc (bit : Nat → Bit) (k : Nat) : Nat × Bit := (k + 1, bit k)

theorem patternSrc_pairNext_iterate (bit : Nat → Bit) (j : Nat) : (pairNext (patternSrc bit))^[j] 0 = 2 * j := by
  induction j with
  | zero => rfl
  | succ j ih =>
    rw [Function.iterate_succ_apply', ih]
    rfl

theorem patternSrc_pairBits_succ (bit : Nat → Bit) (j : Nat) : pairBits (patternSrc bit) 0 (j + 1) =
    pairBits (patternSrc bit) 0 j ++ if bit (2 * j) ≠ bit (2 * j + 1) then [bit (2 * j)] else [] := by
  rw [pairBits_succ, patternSrc_pairNext_iterate]
  rfl

/-- A pattern of pairs that emit one bit every `p` pairs gives `n` bits in `p * n` pairs. -/
theorem patternSrc_done {bit : Nat → Bit} {p n : Nat} (hp : 0 < p) {b : Bit}
    (hbits : ∀ j, pairBits (patternSrc bit) 0 j = List.replicate (j / p) b) {budget : Option Nat}
    (hbudget : withinBudget budget (2 * (p * n))) : vnFilter (patternSrc bit) 0 n budget (p * n + 1) =
      some (.done (2 * (p * n)) (List.replicate n b) (2 * (p * n))) := by
  refine vnFilter_eq_some_iff.2 ⟨p * n, Nat.lt_succ_self _, pairVerdict_eq_done_iff.2 ?_, fun i hi => ?_⟩
  · rw [hbits, Nat.mul_div_cancel_left n hp, patternSrc_pairNext_iterate]
    exact ⟨List.length_replicate, rfl, rfl, rfl⟩
  · refine pairVerdict_eq_none_iff.2 ⟨?_, fun c hc => ?_⟩
    · rw [hbits, List.length_replicate]
      exact Nat.ne_of_lt (Nat.div_lt_of_lt_mul hi)
    · have hroom := hbudget c hc
      omega

/-- The pattern 0, 1 emits a 0 each pair. -/
theorem alternating_pairBits (j : Nat) :
    pairBits (patternSrc fun k => k % 2 == 1) 0 j = List.replicate (j / 1) false := by
  induction j with
  | zero => rfl
  | succ j ih =>
    have hfirst : 2 * j % 2 = 0 := by omega
    have hsecond : (2 * j + 1) % 2 = 1 := by omega
    rw [patternSrc_pairBits_succ, ih, hfirst, hsecond, Nat.div_one, Nat.div_one, List.replicate_succ']
    rfl

/-- The pattern 0, 0, 1, 0 emits a 1 every other pair. -/
theorem every_other_pairBits (j : Nat) :
    pairBits (patternSrc fun k => k % 4 == 2) 0 j = List.replicate (j / 2) true := by
  induction j with
  | zero => rfl
  | succ j ih =>
    have hsecond : (2 * j + 1) % 4 ≠ 2 := by omega
    rw [patternSrc_pairBits_succ, ih, beq_eq_false_iff_ne.2 hsecond]
    obtain h | h : 2 * j % 4 = 0 ∨ 2 * j % 4 = 2 := by omega
    · have hdiv : (j + 1) / 2 = j / 2 := by omega
      rw [h, hdiv]
      exact List.append_nil _
    · have hdiv : (j + 1) / 2 = j / 2 + 1 := by omega
      rw [h, hdiv, List.replicate_succ']
      rfl

/-- A source all of whose pairs are homogeneous emits nothing. -/
theorem pairBits_eq_nil {σ : Type} {src : σ → σ × Bit} {q : σ} (h : ∀ j, pairOut src ((pairNext src)^[j] q) = [])
    (j : Nat) : pairBits src q j = [] := by
  induction j with
  | zero => rfl
  | succ j ih => rw [pairBits_succ, ih, h, List.append_nil]

/-- Before a pair that emits nothing so far, with bits missing, only the budget decides. -/
theorem pairVerdict_of_nil {σ : Type} {src : σ → σ × Bit} {q : σ} {n j : Nat} {budget : Option Nat}
    (hbits : pairBits src q j = []) (hn : 0 < n) :
    pairVerdict src q n budget j =
      if overBudget budget (2 * j) then some (.exhausted ((pairNext src)^[j] q) (2 * j)) else none := by
  have hlen : (pairBits src q j).length ≠ n := by
    rw [hbits]
    exact Nat.ne_of_lt hn
  rw [pairVerdict, if_neg hlen]

/-- Of a constant source only the budget ends the filter. -/
theorem constant_pairVerdict {n : Nat} (hn : 0 < n) (b : Bit) (budget : Option Nat) (j : Nat) :
    pairVerdict (patternSrc fun _ => b) 0 n budget j =
      if overBudget budget (2 * j) then some (.exhausted (2 * j) (2 * j)) else none := by
  have homogeneous : ∀ q, pairOut (patternSrc fun _ => b) q = [] := fun q => if_neg (not_not.2 rfl)
  rw [pairVerdict_of_nil (pairBits_eq_nil (fun i => homogeneous _) j) hn, patternSrc_pairNext_iterate]

/-- Settles O51: the bits each pattern emits, and for the constant one that only the budget ends the filter. -/
theorem filterOnSyntheticSources : Obligations.FilterOnSyntheticSources := by
  unfold Obligations.FilterOnSyntheticSources
  intro n
  refine ⟨fun budget hbudget => ?_, fun budget hbudget => ?_, fun hn b => ⟨fun budget => ?_, fun fuel => ?_⟩⟩
  · have h := patternSrc_done (p := 1) (n := n) (by decide) alternating_pairBits (budget := budget)
    simp only [Nat.one_mul] at h
    exact h hbudget
  · have h := patternSrc_done (p := 2) (n := n) (by decide) every_other_pairBits (budget := budget)
    have hfour : 2 * (2 * n) = 4 * n := by omega
    rw [hfour] at h
    exact h hbudget
  · have hverdict := constant_pairVerdict hn b (some budget)
    refine vnFilter_eq_some_iff.2 ⟨budget / 2, Nat.lt_succ_self _, (hverdict _).trans (if_pos ?_),
      fun i hi => (hverdict i).trans (if_neg ?_)⟩
    · rw [overBudget_some]
      omega
    · rw [overBudget_some]
      omega
  · exact vnFilter_eq_none_iff.2 fun j _ => constant_pairVerdict hn b none j

end Sys2Proof.Machine
end

section
/-!
SUPPORT. A `GENERATE` on the core (spec/43_keygenerator.md): the rows of the sequencer's table (R124) as one move of a core that
generates, the canonical run beside the filter's pairs (R128, R135), and the simplified run, which emits every raw bit (R129,
R131).
-/

namespace Sys2Proof.Machine

/-! ### A core that generates -/

/-- The core in the middle of a `GENERATE n`: `State` and the sequencer's fields as given. -/
def State.sequencing (s : State) (n v : Word) (phase : Phase) (b1 : Bit) (draws : Nat) (out : List Bit) : State :=
  { s with state := .value v, activity := .generating n, phase := phase, b1 := b1, draws := draws, out := out }

/-- A `GENERATE` begins with nothing drawn and nothing emitted. -/
theorem startGenerate_eq_sequencing {s : State} {v : Word} (hv : s.state = .value v) (n : Word) :
    startGenerate n s = s.sequencing n v .first s.b1 0 [] := by
  rw [State.sequencing, ← hv]
  rfl

section Rows

variable (P : Params) {s : State} {n v : Word}

/-- A core that generates makes the move of its mode. -/
theorem advanceWith_generateMove (ha : s.activity = .generating n) (hv : s.state = .value v) :
    advanceWith P s = applyMove s (generateMove P s.mode n.toNat (s.toFilter v)) := by
  rw [advanceWith_generating P ha, sequencerWith_value hv]

theorem advanceWith_filterMove (ha : s.activity = .generating n) (hm : s.mode = .canonical) (hv : s.state = .value v) :
    advanceWith P s = applyMove s
      (filterMove (rawDraw P .canonical) n.toNat (drawBudget P.budgetMult n.toNat) (s.toFilter v)) := by
  rw [advanceWith_generateMove P ha hv, hm]
  rfl

theorem advanceWith_plainMove (ha : s.activity = .generating n) (hm : s.mode = .simplified) (hv : s.state = .value v) :
    advanceWith P s = applyMove s (plainMove (rawDraw P .simplified) n.toNat (s.toFilter v)) := by
  rw [advanceWith_generateMove P ha hv, hm]
  rfl

/-- Between pairs, with all bits emitted, both modes complete (R124, R129). -/
theorem generateMove_complete (mode : Mode) {f : FilterState Word} {length : Nat} (hp : f.phase = .first)
    (hl : f.out.length = length) : generateMove P mode length f = .done f.out := by
  cases mode with
  | canonical => simp only [generateMove, filterMove, hp, if_pos hl]
  | simplified => simp only [generateMove, plainMove, if_pos hl]

theorem advanceWith_complete (ha : s.activity = .generating n) (hv : s.state = .value v) (hp : s.phase = .first)
    (hl : s.out.length = n.toNat) : advanceWith P s = .next (respondBits s.out (goIdle s)) := by
  rw [advanceWith_generateMove P ha hv, generateMove_complete P _ (f := s.toFilter v) hp hl]
  rfl

theorem advanceWith_exhausted (ha : s.activity = .generating n) (hm : s.mode = .canonical) (hv : s.state = .value v)
    (hp : s.phase = .first) (hl : s.out.length ≠ n.toNat)
    (ho : overBudget (drawBudget P.budgetMult n.toNat) s.draws = true) :
    advanceWith P s = .next (raiseFault .extractionExhausted s) := by
  rw [advanceWith_filterMove P ha hm hv]
  simp only [filterMove, toFilter_phase, toFilter_out, toFilter_draws, hp, if_neg hl, ho, if_true, applyMove_exhausted]

theorem advanceWith_first (ha : s.activity = .generating n) (hm : s.mode = .canonical) (hv : s.state = .value v)
    (hp : s.phase = .first) (hl : s.out.length ≠ n.toNat)
    (ho : overBudget (drawBudget P.budgetMult n.toNat) s.draws = false) :
    advanceWith P s = .next { s with state := .value (drawMap v), b1 := extract P.sbox (drawMap v),
                                     draws := s.draws + 1, phase := .second } := by
  rw [advanceWith_filterMove P ha hm hv]
  simp only [filterMove, toFilter_phase, toFilter_out, toFilter_draws, hp, if_neg hl, ho]
  rfl

theorem advanceWith_second (ha : s.activity = .generating n) (hm : s.mode = .canonical) (hv : s.state = .value v)
    (hp : s.phase = .second) :
    advanceWith P s = .next { s with state := .value (drawMap v), draws := s.draws + 1, phase := .first,
                                     out := appendPair s.out s.b1 (extract P.sbox (drawMap v)) } := by
  rw [advanceWith_filterMove P ha hm hv]
  simp only [filterMove, toFilter_phase, hp]
  rfl

theorem advanceWith_plain (ha : s.activity = .generating n) (hm : s.mode = .simplified) (hv : s.state = .value v)
    (hl : s.out.length ≠ n.toNat) :
    advanceWith P s = .next { s with state := .value (drawMap v), draws := s.draws + 1,
                                     out := s.out ++ [(drawMap v).getLsbD 0] } := by
  rw [advanceWith_plainMove P ha hm hv, plainMove, toFilter_out, if_neg hl]
  rfl

end Rows

/-- Test B is passed by every count under no bound, and otherwise by those with room for two draws (R123). -/
theorem overBudget_drawBudget_eq_true {m : BudgetMult} {length draws : Nat} :
    overBudget (drawBudget m length) draws = true ↔ ∃ k h, m = .finite k h ∧ k * length < draws + 2 := by
  cases m with
  | unbounded => simp [drawBudget]
  | finite k h => simp [drawBudget, overBudget, h]

/-- Settles O41: the four moves of a canonical core, with test B read through the multiplier. -/
theorem sequencerFollowsItsTable : Obligations.SequencerFollowsItsTable := by
  unfold Obligations.SequencerFollowsItsTable
  intro P s n v ha hm hv
  refine ⟨fun hp hl => ?_, fun hp hl k h hk hb => ?_, fun hp hl hb => ?_, fun hp => ?_⟩
  · rw [advanceWith_complete P ha hv hp hl]
    cases s
    cases hp
    rfl
  · rw [advanceWith_exhausted P ha hm hv hp (Nat.ne_of_lt hl) (overBudget_drawBudget_eq_true.2 ⟨k, h, hk, hb⟩)]
    cases s
    cases hp
    rfl
  · refine advanceWith_first P ha hm hv hp (Nat.ne_of_lt hl) (Bool.eq_false_iff.2 fun ho => ?_)
    obtain ⟨k, h, hk, hlt⟩ := overBudget_drawBudget_eq_true.1 ho
    have hroom := hb k h hk
    omega
  · rw [advanceWith_second P ha hm hv hp, appendPair_eq]
    simp only [ne_eq, ite_not]

/-! ### Runs of the core -/

theorem runCore_add {P : Params} {s t : State} {j : Nat} (h : runCore P j s = .next t) (k : Nat) :
    runCore P (j + k) s = runCore P k t := by
  induction j generalizing s with
  | zero =>
    cases h
    rw [Nat.zero_add]
  | succ j ih =>
    rw [Nat.add_right_comm]
    cases ha : advanceWith P s with
    | next u =>
      rw [runCore_next ha] at h ⊢
      exact ih h
    | fault f => simp [runCore_fault ha] at h
    | refused r => simp [runCore_refused ha] at h

theorem runCore_one {P : Params} {s t : State} (h : advanceWith P s = .next t) : runCore P 1 s = .next t :=
  runCore_next h 0

/-- While it generates, a core whose host makes no move of its own runs as the core alone: a command that is presented
waits (spec/30_encoding.md R68). -/
theorem core_run_eq_runCore_of_quiet {k : Nat} {s : State} (hq : HostQuiet s.host)
    (hg : ∀ j < k, ∃ u n, runCore Config.params j s = .next u ∧ u.activity = .generating n) :
    Sys2Proof.core.run k s = runCore Config.params k s := by
  induction k generalizing s with
  | zero => rfl
  | succ k ih =>
    obtain ⟨u, n, hu, ha⟩ := hg 0 (Nat.succ_pos k)
    cases hu
    have hstep : step s = advance s := (step_quiet hq ha).trans (advanceWith_generating _ ha).symm
    refine core_run_succ_eq_runCore hstep fun t ht => ih ?_ fun j hj => ?_
    · rw [advanceWith_host ht]
      exact hq
    · rw [← runCore_next ht]
      exact hg (j + 1) (Nat.succ_lt_succ hj)

/-! ### The canonical run -/

section Canonical

variable {P : Params} {s : State} {n v : Word} {j : Nat}

/-- `OUT` after a pair is `OUT` before it and what the pair emits. -/
theorem appendPair_pairOut {σ : Type} (src : σ → σ × Bit) (q : σ) (out : List Bit) :
    appendPair out (src q).2 (src (src q).1).2 = out ++ pairOut src q := by
  rw [appendPair_eq, pairOut]
  split <;> simp

/-- The verdict before pair `j` of a canonical `GENERATE n` from `v` (R122, R128). -/
def generateVerdict (P : Params) (n v : Word) (j : Nat) : Option (FilterEnd Word) :=
  pairVerdict (rawDraw P .canonical) v n.toNat (drawBudget P.budgetMult n.toNat) j

/-- The core before pair `j` of a canonical `GENERATE n` from `v`, with a value in the latch. -/
def State.beforePair (s : State) (P : Params) (n v : Word) (j : Nat) (b : Bit) : State :=
  s.sequencing n ((pairNext (rawDraw P .canonical))^[j] v) .first b (2 * j) (pairBits (rawDraw P .canonical) v j)

/-- The core inside pair `j`: one bit drawn, and in the latch. -/
def State.insidePair (s : State) (P : Params) (n v : Word) (j : Nat) : State :=
  s.sequencing n (drawMap ((pairNext (rawDraw P .canonical))^[j] v)) .second
    (extract P.sbox (drawMap ((pairNext (rawDraw P .canonical))^[j] v))) (2 * j + 1)
    (pairBits (rawDraw P .canonical) v j)

theorem advanceWith_beforePair (hm : s.mode = .canonical) (hverdict : generateVerdict P n v j = none) (b : Bit) :
    advanceWith P (s.beforePair P n v j b) = .next (s.insidePair P n v j) := by
  obtain ⟨hl, hwithin⟩ := pairVerdict_eq_none_iff.1 hverdict
  exact advanceWith_first P (s := s.beforePair P n v j b) rfl hm rfl rfl hl (overBudget_eq_false.2 hwithin)

theorem advanceWith_insidePair (hm : s.mode = .canonical) : advanceWith P (s.insidePair P n v j) =
    .next (s.beforePair P n v (j + 1) (extract P.sbox (drawMap ((pairNext (rawDraw P .canonical))^[j] v)))) := by
  refine (advanceWith_second P (s := s.insidePair P n v j) rfl hm rfl rfl).trans ?_
  rw [State.beforePair, Function.iterate_succ_apply', pairBits_succ, ← appendPair_pairOut]
  rfl

/-- As long as every pair is drawn, the core comes to the pairs of the filter. -/
theorem runCore_pairs (hv : s.state = .value v) (hm : s.mode = .canonical)
    (h : ∀ i < j, generateVerdict P n v i = none) :
    ∃ b, runCore P (2 * j) (startGenerate n s) = .next (s.beforePair P n v j b) := by
  induction j with
  | zero => exact ⟨s.b1, congrArg _ (startGenerate_eq_sequencing hv n)⟩
  | succ j ih =>
    obtain ⟨b, hb⟩ := ih fun i hi => h i (Nat.lt_succ_of_lt hi)
    have hdraw := advanceWith_beforePair (s := s) hm (h j (Nat.lt_succ_self j)) b
    exact ⟨_, (runCore_add hb 2).trans ((runCore_next hdraw 1).trans (runCore_one (advanceWith_insidePair hm)))⟩

/-- As long as every pair is drawn, the core generates and shows no response. -/
theorem stillGenerating_of_pairs (hv : s.state = .value v) (hm : s.mode = .canonical) (hr : s.rsp = none)
    (h : ∀ i < j, generateVerdict P n v i = none) {k : Nat} (hk : k ≤ 2 * j) :
    ∃ u, runCore P k (startGenerate n s) = .next u ∧ u.StillGenerating n := by
  obtain ⟨i, rfl | rfl⟩ := Nat.even_or_odd' k
  · obtain ⟨b, hb⟩ := runCore_pairs (j := i) hv hm fun m hi => h m (by omega)
    exact ⟨_, hb, rfl, hr⟩
  · obtain ⟨b, hb⟩ := runCore_pairs (j := i) hv hm fun m hi => h m (by omega)
    exact ⟨_, (runCore_add hb 1).trans (runCore_one (advanceWith_beforePair hm (h i (by omega)) b)), rfl, hr⟩

/-- Where the filter is done the core completes. -/
theorem runCore_done (hv : s.state = .value v) (hm : s.mode = .canonical)
    (h : ∀ i < j, generateVerdict P n v i = none) {u : Word} {out : List Bit} {draws : Nat}
    (hj : generateVerdict P n v j = some (.done u out draws)) :
    ∃ b, runCore P (draws + 1) (startGenerate n s) = .next ({ s with b1 := b }.finished u ⟨okWord 0, some out⟩) := by
  obtain ⟨hl, rfl, rfl, rfl⟩ := pairVerdict_eq_done_iff.1 hj
  obtain ⟨b, hb⟩ := runCore_pairs hv hm h
  exact ⟨b, (runCore_add hb 1).trans (runCore_one (advanceWith_complete P (s := s.beforePair P n v j b) rfl rfl rfl hl))⟩

/-- Where the filter is exhausted the core raises the fault. -/
theorem runCore_exhausted (hv : s.state = .value v) (hm : s.mode = .canonical)
    (h : ∀ i < j, generateVerdict P n v i = none) {u : Word} {draws : Nat}
    (hj : generateVerdict P n v j = some (.exhausted u draws)) :
    ∃ b, runCore P (draws + 1) (startGenerate n s) =
      .next ({ s with b1 := b, xh := true }.finished u ⟨faultWord .extractionExhausted, none⟩) := by
  obtain ⟨hl, ho, rfl, rfl⟩ := pairVerdict_eq_exhausted_iff.1 hj
  obtain ⟨b, hb⟩ := runCore_pairs hv hm h
  exact ⟨b, (runCore_add hb 1).trans
    (runCore_one (advanceWith_exhausted P (s := s.beforePair P n v j b) rfl hm rfl rfl hl ho))⟩

end Canonical

/-- Settles O44: the core follows the filter's pairs to its first verdict. -/
theorem canonicalGenerateRunsTheFilter : Obligations.CanonicalGenerateRunsTheFilter := by
  unfold Obligations.CanonicalGenerateRunsTheFilter
  intro P s v n fuel hv hm
  obtain ⟨hdone, hexhausted⟩ :=
    filterCounts Word (rawDraw P .canonical) v n.toNat (drawBudget P.budgetMult n.toNat) fuel
  refine ⟨_, exec_generate_value hv n, fun u out draws h => ?_, fun u draws h => ?_⟩
  · obtain ⟨-, heven, htwice, -, hu, -⟩ := hdone u out draws h
    obtain ⟨j, -, hj, hbefore⟩ := vnFilter_eq_some_iff.1 h
    exact ⟨hu, heven, htwice, runCore_done hv hm hbefore hj⟩
  · obtain ⟨-, hu, -⟩ := hexhausted u draws h
    obtain ⟨j, -, hj, hbefore⟩ := vnFilter_eq_some_iff.1 h
    exact ⟨hu, runCore_exhausted hv hm hbefore hj⟩

/-- Settles O45: a filter that never returns draws every pair, and so does the core. -/
theorem generateHangsWhereTheFilterDoes : Obligations.GenerateHangsWhereTheFilterDoes := by
  unfold Obligations.GenerateHangsWhereTheFilterDoes
  intro P s v n hv hm hr hnone
  have hpairs : ∀ j, generateVerdict P n v j = none := fun j =>
    vnFilter_eq_none_iff.1 (hnone (j + 1)) j (Nat.lt_succ_self j)
  exact ⟨_, exec_generate_value hv n, fun k =>
    stillGenerating_of_pairs (j := k) hv hm hr (fun i _ => hpairs i) (by omega)⟩

/-! ### A fixed point of the draw map -/

/-- At a fixed point the two bits of a pair are read from one word. -/
theorem pairOut_fixedPoint {P : Params} {v : Word} (h : drawMap v = v) : pairOut (rawDraw P .canonical) v = [] := by
  have hnext : (rawDraw P .canonical v).1 = v := h
  rw [pairOut, hnext]
  exact if_neg (not_not.2 rfl)

theorem pairNext_fixedPoint {P : Params} {v : Word} (h : drawMap v = v) (j : Nat) :
    (pairNext (rawDraw P .canonical))^[j] v = v := by
  refine Function.iterate_fixed ?_ j
  change drawMap (drawMap v) = v
  rw [h, h]

/-- At a fixed point only the budget ends a `GENERATE` of a length above 0. -/
theorem generateVerdict_fixedPoint {P : Params} {n v : Word} (h : drawMap v = v) (hn : n ≠ 0) (j : Nat) :
    generateVerdict P n v j =
      if overBudget (drawBudget P.budgetMult n.toNat) (2 * j) then some (.exhausted v (2 * j)) else none := by
  have hbits : pairBits (rawDraw P .canonical) v j = [] :=
    pairBits_eq_nil (fun i => by rw [pairNext_fixedPoint h]; exact pairOut_fixedPoint h) j
  have hlength : 0 < n.toNat := Nat.pos_of_ne_zero fun h0 => hn (BitVec.eq_of_toNat_eq h0)
  rw [generateVerdict, pairVerdict_of_nil hbits hlength, pairNext_fixedPoint h]

/-- Settles O59: pairs are drawn as long as the budget has room for two draws, and the first that has not is exhausted. -/
theorem fixedPointsNeverYieldABit : Obligations.FixedPointsNeverYieldABit := by
  unfold Obligations.FixedPointsNeverYieldABit
  intro P s v n hv hfix hm hr hn
  have hverdict := generateVerdict_fixedPoint (P := P) hfix hn
  refine ⟨_, exec_generate_value hv n, fun m h2 hmult => ?_, fun hmult k => ?_⟩
  · have hroom : ∀ i < m * n.toNat / 2, generateVerdict P n v i = none := fun i hi => by
      refine (hverdict i).trans (if_neg ?_)
      rw [hmult, drawBudget, overBudget_some]
      omega
    have hend : generateVerdict P n v (m * n.toNat / 2) = some (.exhausted v (2 * (m * n.toNat / 2))) := by
      refine (hverdict _).trans (if_pos ?_)
      rw [hmult, drawBudget, overBudget_some]
      omega
    exact ⟨fun k hk => stillGenerating_of_pairs hv hm hr hroom hk, runCore_exhausted hv hm hroom hend⟩
  · have hpairs : ∀ i, generateVerdict P n v i = none := fun i => by
      rw [hverdict, hmult]
      rfl
    exact stillGenerating_of_pairs (j := k) hv hm hr (fun i _ => hpairs i) (by omega)

/-! ### The simplified run -/

/-- The raw bits of the first `k` draws from `v` in simplified mode (R105, R129). -/
def plainBits (v : Word) (k : Nat) : List Bit := (List.range k).map fun i => (drawMap^[i + 1] v).getLsbD 0

@[simp] theorem plainBits_length (v : Word) (k : Nat) : (plainBits v k).length = k := by
  rw [plainBits, List.length_map, List.length_range]

theorem plainBits_succ (v : Word) (k : Nat) :
    plainBits v (k + 1) = plainBits v k ++ [(drawMap^[k + 1] v).getLsbD 0] := by
  rw [plainBits, List.range_succ, List.map_append]
  rfl

theorem plainBits_add (v : Word) (a b : Nat) : plainBits v (a + b) = plainBits v a ++ plainBits (drawMap^[a] v) b := by
  induction b with
  | zero => exact (List.append_nil _).symm
  | succ b ih =>
    rw [← Nat.add_assoc, plainBits_succ, ih, plainBits_succ, List.append_assoc, ← Function.iterate_add_apply,
      Nat.add_right_comm b 1 a, Nat.add_comm b a]

section Simplified

variable (P : Params) {s : State} {v : Word}

/-- The core after `k` draws of a simplified `GENERATE n` from `v`. -/
def State.afterDraws (s : State) (n v : Word) (k : Nat) : State :=
  s.sequencing n (drawMap^[k] v) .first s.b1 k (plainBits v k)

theorem runCore_draws (hv : s.state = .value v) (hm : s.mode = .simplified) {n : Word} {k : Nat} (hk : k ≤ n.toNat) :
    runCore P k (startGenerate n s) = .next (s.afterDraws n v k) := by
  induction k with
  | zero => exact congrArg _ (startGenerate_eq_sequencing hv n)
  | succ k ih =>
    have hmissing : (plainBits v k).length ≠ n.toNat := by
      rw [plainBits_length]
      omega
    rw [runCore_add (ih (Nat.le_of_succ_le hk)),
      runCore_one (advanceWith_plain P (s := s.afterDraws n v k) rfl hm rfl hmissing)]
    simp only [State.afterDraws, plainBits_succ, Function.iterate_succ_apply']
    rfl

/-- A simplified `GENERATE n` completes after `n` draws. -/
theorem runCore_plain (hv : s.state = .value v) (hm : s.mode = .simplified) (n : Word) :
    runCore P (n.toNat + 1) (startGenerate n s) =
      .next (s.finished (drawMap^[n.toNat] v) ⟨okWord 0, some (plainBits v n.toNat)⟩) :=
  (runCore_add (runCore_draws P hv hm (Nat.le_refl _)) 1).trans
    (runCore_one (advanceWith_complete P (s := s.afterDraws n v n.toNat) rfl rfl rfl (plainBits_length v _)))

end Simplified

/-- The machine under a quiet host runs a simplified `GENERATE` as the core alone does. -/
theorem core_run_plain {s : State} {v : Word} (hv : s.state = .value v) (hm : s.mode = .simplified)
    (hq : HostQuiet s.host) (n : Word) : Sys2Proof.core.run (n.toNat + 1) (startGenerate n s) =
      .next (s.finished (drawMap^[n.toNat] v) ⟨okWord 0, some (plainBits v n.toNat)⟩) := by
  refine (core_run_eq_runCore_of_quiet (s := startGenerate n s) hq fun j hj => ?_).trans (runCore_plain _ hv hm n)
  exact ⟨_, n, runCore_draws _ hv hm (Nat.le_of_lt_succ hj), rfl⟩

/-- Settles O43: the bits of the simplified run are those of its draws in order. -/
theorem simplifiedGenerateEmitsEveryRawBit : Obligations.SimplifiedGenerateEmitsEveryRawBit := by
  unfold Obligations.SimplifiedGenerateEmitsEveryRawBit
  intro s v n hv hm hq
  exact ⟨_, exec_generate_value hv n, core_run_plain hv hm hq n⟩

/-- Settles O42: with length 0 test A ends the filter at once, and the first move of the core completes. -/
theorem generateZeroDrawsNothing : Obligations.GenerateZeroDrawsNothing := by
  unfold Obligations.GenerateZeroDrawsNothing
  refine ⟨fun σ src q budget fuel => ?_, fun s v hv hq => ⟨_, exec_generate_value hv 0, ?_⟩⟩
  · exact vnFilter_eq_some_iff.2 ⟨0, Nat.succ_pos fuel, rfl, fun i hi => absurd hi (Nat.not_lt_zero i)⟩
  · rw [step_quiet (s := startGenerate 0 s) (n := 0) hq rfl, startGenerate_eq_sequencing hv]
    exact advanceWith_complete Config.params (s := s.sequencing 0 v .first s.b1 0 []) rfl rfl rfl rfl

/-- Two simplified `GENERATE`s one after the other give what one gives (R131). -/
theorem simplified_continues (P : Params) {s : State} {v : Word} (hv : s.state = .value v) (hm : s.mode = .simplified)
    {a b : Word} (hab : a.toNat + b.toNat < 2 ^ 64) : runCore P (a.toNat + b.toNat + 1) (startGenerate (a + b) s) =
      .next (s.finished (drawMap^[b.toNat] (drawMap^[a.toNat] v))
        ⟨okWord 0, some (plainBits v a.toNat ++ plainBits (drawMap^[a.toNat] v) b.toNat)⟩) := by
  have hsum : (a + b).toNat = a.toNat + b.toNat := by rw [BitVec.toNat_add, Nat.mod_eq_of_lt hab]
  have hrun := runCore_plain P hv hm (a + b)
  rw [hsum, plainBits_add, Nat.add_comm a.toNat, Function.iterate_add_apply, Nat.add_comm b.toNat] at hrun
  exact hrun

/-- Settles O50: the least number of pairs adds up, and so do the draws of the simplified mode. -/
theorem generationContinues : Obligations.GenerationContinues := by
  unfold Obligations.GenerationContinues
  constructor
  · intro σ src q q1 q2 q3 a b d1 d2 d3 f1 f2 f3 o1 o2 o3 B1 B2 B3 h1 h2 h3
    exact vnFilter_continues h1 h2 h3
  · intro P s v a b hv hm hab
    exact ⟨_, _, _, _, _, _, _, _, _, exec_generate_value hv a, runCore_plain P hv hm a, rfl, plainBits_length _ _,
      exec_generate_value (finished_state s _ _) b, runCore_plain P (finished_state s _ _) hm b, rfl,
      plainBits_length _ _, exec_generate_value hv (a + b), simplified_continues P hv hm hab⟩

end Sys2Proof.Machine
end

section
/-!
SUPPORT. The draw map on even states and the trap set (spec/70_reset_and_hazards.md R208, R209): an orbit whose states are even
is read bit by bit, rotating by 4 and XORing `C` at each draw.
-/

namespace Sys2Proof.Machine

/-! ### The draw map on an even state -/

/-- The bits of `C` below 64: the odd ones are 1. -/
theorem trapMask_getLsbD : ∀ i < 64, trapMask.getLsbD i = (i % 2 == 1) := by decide

theorem rotr3_K : rotr3 K = trapMask := by decide

/-- Rotating by 1 and then by 3 is rotating by 4. -/
theorem rotr3_rotr64_one (v : Word) : rotr3 (rotr64 v 1) = rotr64 v 4 := by
  apply BitVec.eq_of_getLsbD_eq
  intro i hi
  have hin : (i + 3) % 64 < 64 := Nat.mod_lt _ (by decide)
  have hturn : ((i + 3) % 64 + 1) % 64 = (i + 4) % 64 := by omega
  rw [rotr3_getLsbD_of_lt _ hi, rotr64_getLsbD _ (by decide) (by decide), rotr64_getLsbD _ (by decide) (by decide),
    decide_eq_true hi, decide_eq_true hin, hturn]

theorem drawMap_of_even {v : Word} (h : v.getLsbD 0 = false) : drawMap v = rotr64 v 4 ^^^ trapMask := by
  rw [drawMap, transform_even h, ushiftRight_one_of_even h, rotr3_xor, rotr3_rotr64_one, rotr3_K]

theorem drawMap_getLsbD_of_even {v : Word} (h : v.getLsbD 0 = false) {i : Nat} (hi : i < 64) :
    (drawMap v).getLsbD i = (v.getLsbD ((i + 4) % 64) ^^ (i % 2 == 1)) := by
  rw [drawMap_of_even h, BitVec.getLsbD_xor, rotr64_getLsbD _ (by decide) (by decide), trapMask_getLsbD i hi,
    decide_eq_true hi, Bool.true_and]

/-- While the states of an orbit are even, the one after `k` draws is the start rotated by `4 * k`, with its odd bits
complemented when `k` is odd. -/
theorem drawMap_iterate_getLsbD {v : Word} {k : Nat} (h : ∀ j < k, (drawMap^[j] v).getLsbD 0 = false) {i : Nat}
    (hi : i < 64) :
    (drawMap^[k] v).getLsbD i = (v.getLsbD ((i + 4 * k) % 64) ^^ (k % 2 == 1 && i % 2 == 1)) := by
  induction k generalizing i with
  | zero => simp [Nat.mod_eq_of_lt hi]
  | succ k ih =>
    have hin : (i + 4) % 64 < 64 := Nat.mod_lt _ (by decide)
    have hturn : ((i + 4) % 64 + 4 * k) % 64 = (i + 4 * (k + 1)) % 64 := by omega
    have hodd : (i + 4) % 64 % 2 = i % 2 := by omega
    rw [Function.iterate_succ_apply', drawMap_getLsbD_of_even (h k (Nat.lt_succ_self k)) hi,
      ih (fun j hj => h j (Nat.lt_succ_of_lt hj)) hin, hturn, hodd, Bool.xor_assoc]
    congr 1
    obtain hk | hk : k % 2 = 0 ∨ k % 2 = 1 := by omega
    · have hk' : (k + 1) % 2 = 1 := by omega
      simp [hk, hk']
    · have hk' : (k + 1) % 2 = 0 := by omega
      simp [hk, hk']

/-! ### The trap set -/

/-- The bits of `E`'s mask below 64: every fourth is 1. -/
theorem trapBits_getLsbD : ∀ i < 64, (0x1111111111111111 : Word).getLsbD i = (i % 4 == 0) := by decide

/-- A state is in the trap set when every fourth of its bits is 0. -/
theorem inTrapSet_iff {v : Word} : InTrapSet v ↔ ∀ j ≤ 15, v.getLsbD (4 * j) = false := by
  constructor
  · intro h j hj
    have hbit : (v &&& 0x1111111111111111).getLsbD (4 * j) = (0 : Word).getLsbD (4 * j) :=
      congrArg (fun w : Word => w.getLsbD (4 * j)) h
    have hmask : (4 * j % 4 == 0) = true := beq_iff_eq.2 (Nat.mul_mod_right 4 j)
    rw [BitVec.getLsbD_and, trapBits_getLsbD (4 * j) (by omega), hmask, Bool.and_true] at hbit
    exact hbit.trans BitVec.getLsbD_zero
  · intro h
    refine BitVec.eq_of_getLsbD_eq fun i hi => ?_
    refine Eq.trans ?_ BitVec.getLsbD_zero.symm
    rw [BitVec.getLsbD_and, trapBits_getLsbD i hi]
    by_cases hmask : i % 4 = 0
    · have hi4 : 4 * (i / 4) = i := by omega
      rw [← hi4, h (i / 4) (by omega), Bool.false_and]
    · rw [beq_eq_false_iff_ne.2 hmask, Bool.and_false]

theorem InTrapSet.even {v : Word} (h : InTrapSet v) : v.getLsbD 0 = false := inTrapSet_iff.1 h 0 (by decide)

/-- A draw moves every fourth bit to the place of another, and XORs odd bits only. -/
theorem InTrapSet.draw {v : Word} (h : InTrapSet v) : InTrapSet (drawMap v) := by
  refine inTrapSet_iff.2 fun j hj => ?_
  have hfourth : (4 * j + 4) % 64 = 4 * ((j + 1) % 16) := by omega
  have heven : 4 * j % 2 = 0 := by omega
  rw [drawMap_getLsbD_of_even h.even (by omega), hfourth, inTrapSet_iff.1 h _ (by omega), heven]
  rfl

theorem InTrapSet.iterate {v : Word} (h : InTrapSet v) (k : Nat) : InTrapSet (drawMap^[k] v) := by
  induction k with
  | zero => exact h
  | succ k ih =>
    rw [Function.iterate_succ_apply']
    exact ih.draw

/-- Settles O54: the even branch of the transform is a rotation by 1, and rotations by multiples of 4 keep every fourth bit. -/
theorem trapSetIsClosed : Obligations.TrapSetIsClosed := by
  unfold Obligations.TrapSetIsClosed
  exact ⟨fun v h => drawMap_of_even h, fun v h => ⟨h.even, h.draw⟩⟩

/-! ### Orbits in the trap set -/

theorem InTrapSet.iterate_getLsbD {v : Word} (h : InTrapSet v) (k : Nat) {i : Nat} (hi : i < 64) :
    (drawMap^[k] v).getLsbD i = (v.getLsbD ((i + 4 * k) % 64) ^^ (k % 2 == 1 && i % 2 == 1)) :=
  drawMap_iterate_getLsbD (fun j _ => (h.iterate j).even) hi

/-- A mask that is XORed in at odd `k` only, bit by bit. -/
theorem getLsbD_ite_odd {n : Nat} (mask : BitVec n) (k i : Nat) :
    (if k % 2 = 1 then mask else 0).getLsbD i = (k % 2 == 1 && mask.getLsbD i) := by
  by_cases hk : k % 2 = 1
  · simp [hk]
  · rw [if_neg hk, beq_eq_false_iff_ne.2 hk, Bool.false_and]
    exact BitVec.getLsbD_zero

theorem InTrapSet.iterate_eq {v : Word} (h : InTrapSet v) {k : Nat} (h0 : 0 < k) (h15 : k ≤ 15) :
    drawMap^[k] v = rotr64 v (4 * k) ^^^ (if k % 2 = 1 then trapMask else 0) := by
  refine BitVec.eq_of_getLsbD_eq fun i hi => ?_
  rw [h.iterate_getLsbD k hi, BitVec.getLsbD_xor, rotr64_getLsbD v (by omega) (by omega), getLsbD_ite_odd,
    trapMask_getLsbD i hi, decide_eq_true hi, Bool.true_and]

/-- Sixteen draws are a full turn and complement every odd bit an even number of times. -/
theorem InTrapSet.period {v : Word} (h : InTrapSet v) : drawMap^[16] v = v := by
  refine BitVec.eq_of_getLsbD_eq fun i hi => ?_
  have hturn : (i + 4 * 16) % 64 = i := by omega
  rw [h.iterate_getLsbD 16 hi, hturn]
  exact Bool.xor_false _

/-- The odd bits of a nibble. -/
theorem complementMask_getLsbD : ∀ i < 4, (0xA : Nibble).getLsbD i = (i % 2 == 1) := by decide

/-- The low nibble of the orbit reads the nibbles of its start in turn. -/
theorem InTrapSet.lowNibble_iterate {v : Word} (h : InTrapSet v) (k : Nat) : lowNibble (drawMap^[k] v) =
    v.extractLsb' (4 * (k % 16)) 4 ^^^ (if k % 2 = 1 then 0xA else 0) := by
  refine BitVec.eq_of_getLsbD_eq fun i hi => ?_
  have hplace : (i + 4 * k) % 64 = 4 * (k % 16) + i := by omega
  rw [lowNibble_getLsbD, h.iterate_getLsbD k (by omega), hplace, BitVec.getLsbD_xor, BitVec.getLsbD_extractLsb',
    getLsbD_ite_odd, complementMask_getLsbD i hi, decide_eq_true hi, Bool.true_and, Bool.true_and]

/-- Settles O55: read off the bits of the orbit. -/
theorem trapSetOrbit : Obligations.TrapSetOrbit := by
  unfold Obligations.TrapSetOrbit
  intro v h
  refine ⟨fun k h15 h0 => h.iterate_eq h0 h15, h.period, fun k => ⟨h.lowNibble_iterate k, ?_⟩⟩
  rw [lowNibble_getLsbD, (h.iterate k).even, Bool.and_false]

/-- Settles O56: while the states are even, the parity after `j` draws is bit `4 * j` of the start. -/
theorem trapSetIsWhereSixteenStatesAreEven : Obligations.TrapSetIsWhereSixteenStatesAreEven := by
  unfold Obligations.TrapSetIsWhereSixteenStatesAreEven
  refine fun v => ⟨fun h k _ => (h.iterate k).even, fun h => inTrapSet_iff.2 fun j hj => ?_⟩
  have hbit := drawMap_iterate_getLsbD (v := v) (k := j) (fun i hi => h i (by omega)) (i := 0) (by decide)
  have hplace : (0 + 4 * j) % 64 = 4 * j := by omega
  rw [h j hj, hplace, Nat.zero_mod] at hbit
  simpa using hbit.symm

/-- Settles O57: `State` is written by draws alone, under which the trap set is closed. -/
theorem trapSetIsNeverLeft : Obligations.TrapSetIsNeverLeft := by
  unfold Obligations.TrapSetIsNeverLeft
  intro s t v hv htrap hstep hreset hload
  by_cases hkept : t.state = s.state
  · exact ⟨v, hkept.trans hv, htrap⟩
  · obtain ⟨rest, hh, -⟩ | ⟨w, rest, seed, ha, hh, hw, -⟩ | ⟨u, hu, ht, -⟩ :=
      stateIsWrittenBySeedAndDrawsOnly s t hstep hkept
    · exact absurd hh (hreset rest)
    · exact absurd hw (hload w rest seed ha hh)
    · cases hv.symm.trans hu
      exact ⟨_, ht, htrap.draw⟩

/-! ### Fixed points -/

/-- The state whose even nibbles are `n` and whose odd ones are `n` with its odd bits complemented. -/
def nibblePattern (n : Nibble) : Word := ((n ^^^ 0xA) ++ n : BitVec 8).replicate 8

theorem patternByte_getLsbD (n : Nibble) {i : Nat} (hi : i < 8) : ((n ^^^ 0xA) ++ n : BitVec 8).getLsbD i =
    (n.getLsbD (i % 4) ^^ (i / 4 % 2 == 1 && i % 2 == 1)) := by
  refine BitVec.getLsbD_append.trans ?_
  split
  case isTrue hlow =>
    rw [Nat.mod_eq_of_lt hlow, Nat.div_eq_of_lt hlow]
    exact (Bool.xor_false _).symm
  case isFalse hhigh =>
    have hbit : i % 4 = i - 4 := by omega
    have hnibble : i / 4 % 2 = 1 := by omega
    have hodd : (i - 4) % 2 = i % 2 := by omega
    rw [BitVec.getLsbD_xor, complementMask_getLsbD (i - 4) (by omega), hbit, hnibble, hodd]
    rfl

/-- Bit `i` of the pattern is bit `i % 4` of its nibble, complemented at the odd bits of the odd nibbles. -/
theorem nibblePattern_getLsbD (n : Nibble) {i : Nat} (hi : i < 64) :
    (nibblePattern n).getLsbD i = (n.getLsbD (i % 4) ^^ (i / 4 % 2 == 1 && i % 2 == 1)) := by
  have hbit : i % 8 % 4 = i % 4 := by omega
  have hnibble : i % 8 / 4 % 2 = i / 4 % 2 := by omega
  have hodd : i % 8 % 2 = i % 2 := by omega
  refine BitVec.getLsbD_replicate.trans ?_
  rw [patternByte_getLsbD n (Nat.mod_lt i (by decide)), hbit, hnibble, hodd, decide_eq_true hi, Bool.true_and]

/-- An even fixed point is in the trap set, since its orbit is itself. -/
theorem inTrapSet_of_fixedPoint {v : Word} (heven : v.getLsbD 0 = false) (hfix : drawMap v = v) : InTrapSet v :=
  (trapSetIsWhereSixteenStatesAreEven v).2 fun k _ => by rwa [Function.iterate_fixed hfix]

/-- The nibbles of an even fixed point are all read from its lowest. -/
theorem eq_nibblePattern_of_fixedPoint {v : Word} (heven : v.getLsbD 0 = false) (hfix : drawMap v = v) :
    v = nibblePattern (lowNibble v) := by
  refine BitVec.eq_of_getLsbD_eq fun i hi => ?_
  have horbit := (inTrapSet_of_fixedPoint heven hfix).iterate_getLsbD (i / 4) (i := i % 4) (by omega)
  have hplace : (i % 4 + 4 * (i / 4)) % 64 = i := by omega
  have hodd : i % 4 % 2 = i % 2 := by omega
  have hlow : i % 4 < 4 := Nat.mod_lt i (by decide)
  rw [Function.iterate_fixed hfix, hplace, hodd] at horbit
  rw [nibblePattern_getLsbD _ hi, lowNibble_getLsbD, decide_eq_true hlow, Bool.true_and, horbit, Bool.xor_assoc,
    Bool.xor_self, Bool.xor_false]

/-- The even fixed points of the draw map (R209). -/
def evenFixedPoints : List Word :=
  [0x0A0A0A0A0A0A0A0A, 0x2828282828282828, 0x4E4E4E4E4E4E4E4E, 0x6C6C6C6C6C6C6C6C,
    0x8282828282828282, 0xA0A0A0A0A0A0A0A0, 0xC6C6C6C6C6C6C6C6, 0xE4E4E4E4E4E4E4E4]

theorem nibblePattern_mem : ∀ n : Nibble, n.getLsbD 0 = false → nibblePattern n ∈ evenFixedPoints := by decide

theorem drawMap_evenFixedPoints : ∀ v ∈ evenFixedPoints, drawMap v = v := by
  simp only [evenFixedPoints, List.forall_mem_cons]
  refine ⟨?_, ?_, ?_, ?_, ?_, ?_, ?_, ?_, List.forall_mem_nil _⟩ <;> decide

theorem drawMap_eq_self_iff {v : Word} (heven : v.getLsbD 0 = false) : drawMap v = v ↔ v ∈ evenFixedPoints := by
  refine ⟨fun hfix => ?_, drawMap_evenFixedPoints v⟩
  rw [eq_nibblePattern_of_fixedPoint heven hfix]
  refine nibblePattern_mem _ ?_
  rw [lowNibble_getLsbD, heven, Bool.and_false]

/-- Settles O58: an even fixed point is one of the eight patterns of an even nibble. -/
theorem evenFixedPointsOfTheDraw : Obligations.EvenFixedPointsOfTheDraw := by
  unfold Obligations.EvenFixedPointsOfTheDraw
  exact ⟨fun v heven => drawMap_eq_self_iff heven, fun v heven hfix => inTrapSet_of_fixedPoint heven hfix, by decide⟩

/-! ### The simplified mode in the trap set -/

/-- Every raw bit of the simplified mode is the parity of a state of the trap set. -/
theorem plainBits_of_inTrapSet {v : Word} (h : InTrapSet v) (k : Nat) : plainBits v k = List.replicate k false := by
  refine List.eq_replicate_iff.2 ⟨plainBits_length v k, fun b hb => ?_⟩
  obtain ⟨i, -, rfl⟩ := List.mem_map.1 hb
  exact (h.iterate (i + 1)).even

/-- Settles O60: the simplified run emits its raw bits, which are 0 in the trap set. -/
theorem trapSetGivesZerosInSimplifiedMode : Obligations.TrapSetGivesZerosInSimplifiedMode := by
  unfold Obligations.TrapSetGivesZerosInSimplifiedMode
  intro s v n hv htrap hm hq
  refine ⟨_, exec_generate_value hv n, ?_⟩
  rw [core_run_plain hv hm hq n, plainBits_of_inTrapSet htrap]

end Sys2Proof.Machine
end
